-- ==== Sys2Proof/Word.lean ====
section
/-! DEFINITION. The words of RSACORE (spec 00_scope.md rules R6, R7, R10): registers and operands of 64 bits, command words and entropy words of
32 bits, bytes of the window. All are unsigned. -/

namespace Sys2Proof

/-- A register or a `u64` operand (R7). -/
abbrev Word := BitVec 64

/-- A command word or an entropy word (R7, R8). -/
abbrev Word32 := BitVec 32

/-- A byte of the register window (R41). -/
abbrev Byte := BitVec 8

end Sys2Proof
end

