-- ==== Sys2Proof/Syntax.lean ====
section
/-! DEFINITION. The commands of RSACORE, one constructor per row of spec/opcode_table.json (30_encoding.md rules R54, R57, R59). No command has an
operand field: operands come from registers (R55). -/

namespace Sys2Proof

/-- A command word, decoded. -/
inductive Instr where
  /-- OP 0x0 (R73). -/
  | nop
  /-- OP 0x1 (R79). -/
  | modmul
  /-- OP 0x2 (R81). -/
  | modexp
  /-- OP 0x3 (R83). -/
  | modinv
  /-- OP 0x4 (R91). -/
  | primetest
  /-- OP 0x5 (R93). -/
  | primegen
  /-- OP 0x6 (R94). -/
  | keygen
  /-- OP 0x7 (R97). -/
  | encrypt
  /-- OP 0x8 (R98). -/
  | decrypt
  /-- Any other word `w` (R59, R74). The word is kept so that it can be written out again. Log 15. -/
  | illegal (w : Word32)
  deriving DecidableEq, Repr

end Sys2Proof
end

