-- ==== Sys2Proof/WellFormed.lean ====
section
/-! DEFINITION. Which terms of `Instr` stand for a command word (30_encoding.md rule R59): the nine commands always, `illegal w` only when `w` is an
illegal word. -/

namespace Sys2Proof

/-- R59: a word is illegal when `w[31:4] != 0` or `OP = w[3:0]` is in 0x9 to 0xF. -/
def wordIllegal (w : Word32) : Bool :=
  w.extractLsb' 4 28 != 0#28 || decide (9#4 ≤ w.extractLsb' 0 4)

/-- The check of an instruction: an `illegal` term holds an illegal word. -/
def Instr.wellFormed : Instr → Bool
  | .nop => true
  | .modmul => true
  | .modexp => true
  | .modinv => true
  | .primetest => true
  | .primegen => true
  | .keygen => true
  | .encrypt => true
  | .decrypt => true
  | .illegal w => wordIllegal w

end Sys2Proof
end

