-- ==== Sys2Proof/Decode.lean ====
section
/-! DEFINITION. The decoder, total on command words (R59) and on bytes, and the encoder written from the same table (30_encoding.md rules R54, R57). -/

namespace Sys2Proof

/-- R57, R59: `OP` selects the command when `w[31:4] = 0`; every other word is ILLEGAL. -/
def decodeWord (w : Word32) : Instr :=
  if wordIllegal w then .illegal w
  else match (w.extractLsb' 0 4).toNat with
    | 0 => .nop
    | 1 => .modmul
    | 2 => .modexp
    | 3 => .modinv
    | 4 => .primetest
    | 5 => .primegen
    | 6 => .keygen
    | 7 => .encrypt
    | 8 => .decrypt
    | _ => .illegal w

/-- Why bytes are no command word. -/
inductive DecodeError where
  /-- Fewer than the four bytes of a command word (R54: there is no other length). -/
  | truncated
  deriving DecidableEq, Repr

/-- The 32-bit word of four bytes, the first at the lowest address (R41, little-endian). -/
def wordOfBytes (b0 b1 b2 b3 : Byte) : Word32 := b3 ++ b2 ++ b1 ++ b0

/-- The four bytes of a word in the order of their addresses (R41). -/
def bytesOfWord (w : Word32) : List Byte :=
  [w.extractLsb' 0 8, w.extractLsb' 8 8, w.extractLsb' 16 8, w.extractLsb' 24 8]

/-- A command word read from bytes, with the bytes after it. -/
def decodeBytes : List Byte → Except DecodeError (Instr × List Byte)
  | b0 :: b1 :: b2 :: b3 :: rest => .ok (decodeWord (wordOfBytes b0 b1 b2 b3), rest)
  | _ => .error .truncated

/-- The encoder: the command word of an instruction (R57). -/
def encode : Instr → Word32
  | .nop => 0x0#32
  | .modmul => 0x1#32
  | .modexp => 0x2#32
  | .modinv => 0x3#32
  | .primetest => 0x4#32
  | .primegen => 0x5#32
  | .keygen => 0x6#32
  | .encrypt => 0x7#32
  | .decrypt => 0x8#32
  | .illegal w => w

/-- The bytes of an instruction's command word. -/
def encodeBytes (i : Instr) : List Byte := bytesOfWord (encode i)

/-- The instruction the decoder reads from the table's bits `w` of `nbits` bits (whole bytes, at most the four of a command word). -/
def decodeTableWord (nbits w : Nat) : Option Instr :=
  if nbits % 8 = 0 ∧ nbits ≤ 32 ∧ w < 2 ^ nbits then
    match decodeBytes (bytesOfWord (BitVec.ofNat 32 w)) with
    | .ok (i, _) => some i
    | .error _ => none
  else none

end Sys2Proof
end

