-- ==== Sys2Proof/Config.lean ====
section
/-! DEFINITION. What is fixed for one RSACORE: the constants the spec states, the parameters of the platform, and the free values. A constant with no
body (`opaque`) is a parameter or a free value: no proof can see what it is. -/

namespace Sys2Proof.Config

/-- The identity value of the ID register (R2, R17). -/
def idValue : Word := 0x0000000152534143#64

/-- The public exponent EXP (R6). -/
def publicExponent : Nat := 65537

/-- The size of the register window in bytes (R7, R36). -/
def windowBytes : Nat := 0x100

/-- PARAMETER (R8, D2): which multiple of 0x100 the window's base is. Log 9. -/
opaque baseIndex : Nat

/-- `RSACORE_BASE`, a multiple of 0x100 (R8). Log 9. -/
def rsacoreBase : Nat := windowBytes * baseIndex

/-- PARAMETER (D25, U16): the interrupt line `irq` is wired to. Log 9. -/
opaque rsacoreIrqLine : Nat

/-- FREE VALUE (R22, U5): what the n-th read of SEED while a command runs returns. Log 10. -/
opaque seedReadWhileBusy : Nat → Word

/-- FREE VALUE: what ATTEMPTS holds when the number of words drawn does not fit in 64 bits; the spec states no value there. Log 12. -/
opaque attemptsBeyondWidth : Nat → Word

/-- FREE VALUE: what a host program reads from a host variable it never set; the spec states no value (R61, R62). Log 21. -/
opaque unsetHostVariable : String → Word

end Sys2Proof.Config
end

