-- ==== Sys2Proof/Machine/Arith.lean ====
section
/-! DEFINITION. Exact integer arithmetic on unbounded naturals (00_scope.md rule R9, 41_modarith.md rule R76): modular power, gcd, modular inverse and
primality, each written so that it can be evaluated. Laws/Arith.lean proves each equal to the exact value the rules name. Log 17. -/

namespace Sys2Proof.Machine

/-- R82's loop over the bits of the exponent, least significant first: `k` bits still to scan, `r` the product so far, `b` the running square. -/
def modExpLoop (m : Nat) : Nat → Nat → Nat → Nat → Nat
  | 0, r, _, _ => r
  | k + 1, r, b, e => modExpLoop m k (if e % 2 = 1 then r * b % m else r) (b * b % m) (e / 2)

/-- R81: `base ^ exponent mod modulus` for a 64-bit exponent, starting at `1 mod m` (R82, D15). -/
def modExp (base exponent modulus : Nat) : Nat :=
  modExpLoop modulus 64 (1 % modulus) (base % modulus) exponent

/-- R84's loop: remainders `r0`, `r1` and the coefficients `s0`, `s1`; answers the last `r0` and `s0`. -/
def euclidLoop : Nat → Nat → Nat → Int → Int → Nat × Int
  | 0, r0, _, s0, _ => (r0, s0)
  | k + 1, r0, r1, s0, s1 =>
    if r1 = 0 then (r0, s0) else euclidLoop k r1 (r0 % r1) s1 (s0 - (r0 / r1 : Nat) * s1)

/-- R83, R84: the coefficient of `a` normalised into `[0, m)`; the inverse of `a` modulo `m` when `gcd a m = 1` and `m >= 1`. -/
def modInverse (a m : Nat) : Nat :=
  ((euclidLoop (m + 1) (a % m) m 1 0).2 % (m : Int)).toNat

/-- Does none of the `2 ^ k` odd numbers `lo, lo + 2, …` that lie below `n` divide `n`? -/
def noOddDivisor (n : Nat) : Nat → Nat → Bool
  | 0, lo => Nat.blt 0 (Nat.mod n lo) || Nat.ble n lo
  | k + 1, lo => noOddDivisor n k lo && noOddDivisor n k (Nat.add lo (Nat.pow 2 (k + 1)))

/-- R11: `n >= 2` and no `d` with `1 < d < n` divides `n`. Odd `d` up to beyond the square root of `n` are tried. -/
def isPrime (n : Nat) : Bool :=
  Nat.beq n 2 || (Nat.ble 3 n && Nat.beq (Nat.mod n 2) 1 && noOddDivisor n (Nat.log2 n / 2) 3)

end Sys2Proof.Machine
end

