-- ==== Sys2Proof/Machine/State.lean ====
section
/-! DEFINITION. The state of RSACORE as plain data (10_state.md), the turns that move it (00_scope.md rule R14), the reasons a step can stop, and the
state after reset (70_reset_and_hazards.md rule R114). -/

namespace Sys2Proof.Machine

open Sys2Proof

/-- The error codes of R100. Codes 8 to 15 are never written, so they have no constructor. -/
inductive ErrCode where
  | none
  | illegalOp
  | badModulus
  | width
  | badKey
  | noPrivateExp
  | retryExhausted
  | aborted
  deriving DecidableEq, Repr

/-- The stored fields of CTRL (R19). ABORT and SRST act and hold nothing. -/
structure Ctrl where
  /-- ENT_SRC: false = external entropy port, true = internal seeded generator. -/
  entSrc : Bool
  /-- IRQ_EN. -/
  irqEn : Bool
  deriving DecidableEq, Repr

/-- The stored fields of STATUS (R20). BUSY is held as the sequencer's mode (R30, log 14). -/
structure Status where
  done : Bool
  err : Bool
  flag : Bool
  oor : Bool
  trunc : Bool
  cmdOvr : Bool
  errcode : ErrCode
  lastop : BitVec 4
  deriving DecidableEq, Repr

/-- The operand snapshot taken when a command starts (R31, R67). -/
structure Snapshot where
  /-- `op.OP`. -/
  op : Instr
  a : Word
  b : Word
  m : Word
  c : Word
  /-- `op.LIMIT`, a copy of RETRY_LIMIT. -/
  limit : Word
  /-- `op.SRC`, a copy of CTRL.ENT_SRC. -/
  src : Bool
  deriving DecidableEq, Repr

/-- What the sequencer holds while a command runs (R31, R32, R34). -/
structure Run where
  op : Snapshot
  /-- The entropy words drawn so far, oldest first (R32). -/
  words : List Word32
  /-- The outstanding request on the entropy port (R34, R86). Log 4. -/
  request : Bool
  /-- The word the entropy source delivers in this very step (R86); none between steps. Log 5. -/
  port : Option Word32
  deriving DecidableEq, Repr

/-- The sequencer's mode (R30). -/
inductive Sequencer where
  | idle
  | running (run : Run)
  deriving DecidableEq, Repr

/-- One host bus access (R11): an absolute byte address and a width in bytes; for a write also the value. -/
inductive BusAccess where
  | read (addr bytes : Nat)
  | write (addr bytes : Nat) (value : Word)
  deriving DecidableEq, Repr

/-- One turn: which agent moves next (R14), or the reset input's new level (R114). -/
inductive Turn where
  /-- The host performs one bus access. -/
  | host (access : BusAccess)
  /-- The sequencer takes a step if one is enabled. -/
  | sequencer
  /-- The entropy source delivers a word on the port. -/
  | entropy (w : Word32)
  /-- The reset input `rst` is asserted or released. -/
  | reset (asserted : Bool)
  deriving DecidableEq, Repr

/-- RSACORE's state, with three fields of the model's own at the end. -/
structure State where
  ctrl : Ctrl
  status : Status
  retryLimit : Word
  seed : Word
  a : Word
  b : Word
  m : Word
  c : Word
  r0 : Word
  r1 : Word
  r2 : Word
  attempts : Word
  seq : Sequencer
  /-- The level of the reset input `rst` (R114). Log 6. -/
  rst : Bool
  /-- MODEL's own: the turns still to come (R48, R125, U7). Log 2. -/
  inbox : List Turn
  /-- MODEL's own: the data the last host read returned. Log 11. -/
  busData : Word
  /-- MODEL's own: the number of SEED reads answered while a command ran. Log 10. -/
  freeReads : Nat
  deriving DecidableEq, Repr

/-- The faults. -/
inductive Fault where
  /-- Raised by a host access of a width other than 4 or 8 bytes, or misaligned (R39, R40, R42). Safe: the step stops; R42 has the model treat it as a
  fault of the host program. -/
  | busError
  deriving DecidableEq, Repr

/-- The refusals. -/
inductive Refusal where
  /-- Raised by `exec` for an instruction that has no meaning yet; no arm raises it now. Safe. -/
  | notModelled (mnemonic : String)
  /-- Raised by a host access to an address outside the window, which reaches the platform, not RSACORE (R36). Safe: the step stops. Log 8. -/
  | outsideWindow
  deriving DecidableEq, Repr

/-- The machine right after reset (R114, R16): every register 0, sequencer IDLE, `rst` released. -/
def State.reset : State where
  ctrl := ⟨false, false⟩
  status := ⟨false, false, false, false, false, false, .none, 0#4⟩
  retryLimit := 0#64
  seed := 0#64
  a := 0#64
  b := 0#64
  m := 0#64
  c := 0#64
  r0 := 0#64
  r1 := 0#64
  r2 := 0#64
  attempts := 0#64
  seq := .idle
  rst := false
  inbox := []
  busData := 0#64
  freeReads := 0

end Sys2Proof.Machine
end

