-- ==== Sys2Proof/Machine/Entropy.lean ====
section
/-! DEFINITION. The internal generator, the candidate map, and the procedures of PRIMEGEN and KEYGEN as functions of the words drawn
(42_prime.md rules R87, R89, R90, R93; 43_rsa.md rule R94). -/

namespace Sys2Proof.Machine

open Sys2Proof

/-- R87: the new state `s'`. This step and the next two are irreducible, so that no proof unfolds a sum or product with a 64-bit constant by accident. -/
@[irreducible] def splitmixState (s : Word) : Word := s + 0x9E3779B97F4A7C15#64

/-- R87: the first mixing step of `z`. -/
@[irreducible] def splitmixMix1 (z : Word) : Word := (z ^^^ (z >>> 30)) * 0xBF58476D1CE4E5B9#64

/-- R87: the second mixing step of `z`. -/
@[irreducible] def splitmixMix2 (z : Word) : Word := (z ^^^ (z >>> 27)) * 0x94D049BB133111EB#64

/-- R87: the last mixing step of `z`. -/
def splitmixMix3 (z : Word) : Word := z ^^^ (z >>> 31)

/-- R87: one draw of the internal generator: the new state and the word. -/
def splitmixNext (s : Word) : Word × Word32 :=
  (splitmixState s, (splitmixMix3 (splitmixMix2 (splitmixMix1 (splitmixState s)))).extractLsb' 0 32)

/-- R90: `cand(w) = zext_64(w | 0x8000_0001)`. -/
def cand (w : Word32) : Word := (w ||| 0x80000001#32).setWidth 64

/-- R90, R93: is the word's candidate prime? -/
def candPrime (w : Word32) : Bool := isPrime (cand w).toNat

/-- R89: how far a procedure gets with the words drawn so far. -/
inductive ProcResult where
  | done (r0 r1 r2 : Word)
  | need
  deriving DecidableEq, Repr

/-- R93: PRIMEGEN returns the first prime candidate. -/
def primegenProc : List Word32 → ProcResult
  | [] => .need
  | w :: ws => if candPrime w then .done (cand w) 0#64 0#64 else primegenProc ws

/-- Where KEYGEN's procedure stands (R32): in `p <- gen_prime()`, or drawing `q` for a given `p`. -/
inductive KeyPos where
  | first
  | second (p : Word)
  deriving DecidableEq, Repr

/-- R94, source step 3: `gcd(EXP, (p - 1) * (q - 1)) = 1`. -/
def exponentInvertible (p q : Nat) : Bool :=
  Nat.gcd Config.publicExponent ((p - 1) * (q - 1)) == 1

/-- R94: KEYGEN's procedure from a position. A composite candidate is resampled, `q = p` redraws `q`, and a pair whose exponent has no inverse restarts
from step 1. -/
def keygenFrom : KeyPos → List Word32 → ProcResult
  | _, [] => .need
  | .first, w :: ws => if candPrime w then keygenFrom (.second (cand w)) ws else keygenFrom .first ws
  | .second p, w :: ws =>
    if candPrime w && cand w != p then
      if exponentInvertible p.toNat (cand w).toNat then .done p (cand w) (BitVec.ofNat 64 (p.toNat * (cand w).toNat))
      else keygenFrom .first ws
    else keygenFrom (.second p) ws

/-- R94, R89: `next(op, words)` for KEYGEN. -/
def keygenProc (words : List Word32) : ProcResult := keygenFrom .first words

/-- R89: does the command's procedure need another word after `words`? Only PRIMEGEN and KEYGEN draw (R68). -/
def wantsWord (op : Instr) (words : List Word32) : Bool :=
  match op with
  | .nop => false
  | .modmul => false
  | .modexp => false
  | .modinv => false
  | .primetest => false
  | .primegen => primegenProc words == .need
  | .keygen => keygenProc words == .need
  | .encrypt => false
  | .decrypt => false
  | .illegal _ => false

/-- R88: have `drawn` words used up the cap? `LIMIT = 0` is no cap (R21). -/
def Snapshot.capReached (op : Snapshot) (drawn : Nat) : Bool :=
  op.limit != 0#64 && drawn == op.limit.toNat

/-- A running command with the given words drawn. The request on the entropy port is up while the command needs a word from it (R34, R86, log 4). -/
def Run.after (op : Snapshot) (words : List Word32) : Run where
  op := op
  words := words
  request := !op.src && !op.capReached words.length && wantsWord op.op words
  port := none

end Sys2Proof.Machine
end

