-- ==== Sys2Proof/Machine/Operands.lean ====
section
/-! DEFINITION. Where operands come from and how they are cut: the snapshot (40_control.md rule R67), u32 operands (30_encoding.md rule R56), and the
bytes of a register that a bus access presents (20_memory.md rules R39 to R41, R44). -/

namespace Sys2Proof.Machine

open Sys2Proof

/-- R67: the copy of the operand and configuration registers taken in the issue step, with the decoded command (R65). -/
def State.snapshot (s : State) (op : Instr) : Snapshot where
  op := op
  a := s.a
  b := s.b
  m := s.m
  c := s.c
  limit := s.retryLimit
  src := s.ctrl.entSrc

/-- R56: are bits [63:32] of a u32 operand's register zero? -/
def fitsU32 (v : Word) : Bool := v.extractLsb' 32 32 == 0#32

/-- R56, R10: `v[31:0]` as a number. -/
def lowU32 (v : Word) : Nat := (v.extractLsb' 0 32).toNat

/-- An exact result that lies below 2^64, as a register value (R76, R77). -/
def narrow (n : Nat) : Word := BitVec.ofNat 64 n

/-- R39, R40: is an access at this offset of this width admitted (4 or 8 bytes, naturally aligned)? -/
def accessAdmitted (off bytes : Nat) : Bool :=
  (bytes == 4 || bytes == 8) && off % bytes == 0

/-- The low `8 * bytes` bits set. -/
def widthMask (bytes : Nat) : Word := BitVec.ofNat 64 (2 ^ (8 * bytes) - 1)

/-- R44: the bits of a 64-bit register that an access at `off` presents. -/
def laneMask (off bytes : Nat) : Word := widthMask bytes <<< (8 * (off % 8))

/-- R41: what an access at `off` reads from a register's value `v`, zero above the access's width. -/
def readLanes (v : Word) (off bytes : Nat) : Word := (v >>> (8 * (off % 8))) &&& widthMask bytes

/-- R41: the written value placed at the presented bits of the register. -/
def placeLanes (value : Word) (off bytes : Nat) : Word := (value &&& widthMask bytes) <<< (8 * (off % 8))

/-- R44: the presented bits replace the register's bits, the others stay. -/
def mergeLanes (old value : Word) (off bytes : Nat) : Word :=
  (old &&& ~~~(laneMask off bytes)) ||| placeLanes value off bytes

/-- R44: does an admitted write at `off` present bits [31:0]? -/
def presentsLow (off : Nat) : Bool := off % 8 == 0

end Sys2Proof.Machine
end

