-- ==== Sys2Proof/Machine/Flags.lean ====
section
/-! DEFINITION. The status flags (10_state.md rules R19, R20, R28, R35): their computation by the commands, and CTRL and STATUS as words. -/

namespace Sys2Proof.Machine

open Sys2Proof

/-- The three Boolean results of a completion (R69), 0 where a command's rule does not name them. -/
structure Flags where
  flag : Bool := false
  oor : Bool := false
  trunc : Bool := false
  deriving DecidableEq, Repr

/-- R97: the message is not below the modulus. -/
def outOfRange (message modulus : Nat) : Bool := decide (modulus ≤ message)

/-- R98: the recovered value does not fit in 32 bits. -/
def truncated (y : Nat) : Bool := decide (2 ^ 32 ≤ y)

/-- R30: BUSY is 1 exactly while the sequencer is RUNNING. -/
def State.busy (s : State) : Bool :=
  match s.seq with
  | .idle => false
  | .running _ => true

/-- R35, R106: the level of the interrupt output. -/
def State.irq (s : State) : Bool := s.ctrl.irqEn && s.status.done

/-- R106, D25: the level RSACORE drives on an interrupt line of the platform; its one output goes to `RSACORE_IRQ_LINE`. -/
def State.irqOnLine (s : State) (line : Nat) : Bool := line == Config.rsacoreIrqLine && s.irq

/-- R100: the number of an error code. -/
def ErrCode.code : ErrCode → BitVec 4
  | .none => 0#4
  | .illegalOp => 1#4
  | .badModulus => 2#4
  | .width => 3#4
  | .badKey => 4#4
  | .noPrivateExp => 5#4
  | .retryExhausted => 6#4
  | .aborted => 7#4

/-- A flag at its bit of a register. -/
def bitAt (i : Nat) (b : Bool) : Word := if b then 1#64 <<< i else 0#64

/-- R19: CTRL as read; ABORT, SRST and the reserved bits read 0. -/
def State.ctrlWord (s : State) : Word := bitAt 8 s.ctrl.entSrc ||| bitAt 9 s.ctrl.irqEn

/-- R20: STATUS as read; reserved bits read 0. -/
def State.statusWord (s : State) : Word :=
  bitAt 0 s.busy ||| bitAt 1 s.status.done ||| bitAt 2 s.status.err ||| bitAt 3 s.status.flag ||| bitAt 4 s.status.oor
    ||| bitAt 5 s.status.trunc ||| bitAt 6 s.status.cmdOvr ||| (s.status.errcode.code.setWidth 64 <<< 8)
    ||| (s.status.lastop.setWidth 64 <<< 16)

/-- R65: the status at the start of a command: DONE, ERR, FLAG, OOR, TRUNC, ERRCODE cleared, LASTOP set, CMD_OVR kept. -/
def Status.started (st : Status) (lastop : BitVec 4) : Status where
  done := false
  err := false
  flag := false
  oor := false
  trunc := false
  cmdOvr := st.cmdOvr
  errcode := .none
  lastop := lastop

/-- R69: the status after a successful completion; LASTOP and CMD_OVR kept. -/
def Status.succeeded (st : Status) (f : Flags) : Status where
  done := true
  err := false
  flag := f.flag
  oor := f.oor
  trunc := f.trunc
  cmdOvr := st.cmdOvr
  errcode := .none
  lastop := st.lastop

/-- R70: the status after an error completion; LASTOP and CMD_OVR kept. -/
def Status.failed (st : Status) (code : ErrCode) : Status where
  done := true
  err := true
  flag := false
  oor := false
  trunc := false
  cmdOvr := st.cmdOvr
  errcode := code
  lastop := st.lastop

/-- R20, R105: a host write to STATUS clears DONE at value bit 1 and CMD_OVR at value bit 6; every other bit is ignored. -/
def Status.acknowledged (st : Status) (value : Word) : Status :=
  { st with done := st.done && !value.getLsbD 1, cmdOvr := st.cmdOvr && !value.getLsbD 6 }

end Sys2Proof.Machine
end

