-- ==== Sys2Proof/Machine/Ops.lean ====
section
/-! DEFINITION. The operations the commands share: issue, draw, the successful completion, the error completion (RSACORE's only trap-like event,
60_exceptions.md rule R104), the acknowledgement of a completion (R105), abort and reset. -/

namespace Sys2Proof.Machine

open Sys2Proof

/-- R69, R70: `x[ATTEMPTS] <- length(words)`. A count of 2^64 or more fits no register: a free value (log 12). -/
def attemptsOf (drawn : Nat) : Word :=
  if drawn < 2 ^ 64 then BitVec.ofNat 64 drawn else Config.attemptsBeyondWidth drawn

/-- R69: `complete(r0, r1, r2, flag, oor, trunc)`. -/
def State.complete (s : State) (run : Run) (r0 r1 r2 : Word) (f : Flags) : State :=
  { s with
    r0 := r0
    r1 := r1
    r2 := r2
    attempts := attemptsOf run.words.length
    status := s.status.succeeded f
    seq := .idle }

/-- R70, R104: `raise CmdError(code)`, the error completion, in one step. Any entropy request goes with the run. -/
def State.raise (s : State) (run : Run) (code : ErrCode) : State :=
  { s with
    r0 := 0#64
    r1 := 0#64
    r2 := 0#64
    attempts := attemptsOf run.words.length
    status := s.status.failed code
    seq := .idle }

/-- R73: the completion of NOP: R0, R1, R2 and ATTEMPTS keep their values. -/
def State.completeNop (s : State) : State :=
  { s with status := s.status.succeeded ⟨false, false, false⟩, seq := .idle }

/-- R105: the acknowledgement of a completion, a host write to STATUS. -/
def State.acknowledge (s : State) (value : Word) : State :=
  { s with status := s.status.acknowledged value }

/-- R65, R67: a command word is accepted: snapshot, decode, BUSY set and the completion's flags cleared, in one step. -/
def State.issue (s : State) (w : Word32) : State :=
  { s with
    status := s.status.started (w.extractLsb' 0 4)
    seq := .running (Run.after (s.snapshot (decodeWord w)) []) }

/-- R65, R66: a command word delivered to CMD: accepted when BUSY = 0, else dropped with CMD_OVR set. -/
def State.deliverCmd (s : State) (w : Word32) : State :=
  if s.busy then { s with status := { s.status with cmdOvr := true } } else s.issue w

/-- R88: `draw()`, one step. With the external port it is enabled only on a delivery; otherwise the state stays (log 3). -/
def State.draw (s : State) (run : Run) : State :=
  if run.op.capReached run.words.length then s.raise run .retryExhausted
  else if run.op.src then
    { s with
      seed := (splitmixNext s.seed).1
      seq := .running (Run.after run.op (run.words ++ [(splitmixNext s.seed).2])) }
  else match run.port with
    | some w => { s with seq := .running (Run.after run.op (run.words ++ [w])) }
    | none => s

/-- R89: the sequencer step of a command that draws: complete when the procedure is done, draw otherwise. -/
def State.proceed (s : State) (run : Run) (result : ProcResult) : State :=
  match result with
  | .done r0 r1 r2 => s.complete run r0 r1 r2 ⟨false, false, false⟩
  | .need => s.draw run

/-- The sequencer's step on the running command; an IDLE sequencer does nothing (R113). Log 16. -/
def State.onRun (s : State) (f : Run → State) : State :=
  match s.seq with
  | .idle => s
  | .running run => f run

/-- R75: ABORT ends a running command with ABORTED and has no effect on an IDLE sequencer. -/
def State.abort (s : State) : State := s.onRun fun run => s.raise run .aborted

/-- R114: every register at its reset value, sequencer IDLE. The reset line and the model's own fields stay. -/
def State.hardReset (s : State) : State :=
  { State.reset with rst := s.rst, inbox := s.inbox, busData := s.busData, freeReads := s.freeReads }

/-- R19: ENT_SRC and IRQ_EN take bits 8 and 9 of a value written to CTRL. -/
def State.setCtrl (s : State) (value : Word) : State :=
  { s with ctrl := ⟨value.getLsbD 8, value.getLsbD 9⟩ }

/-- R45, R75, R115: a write that presents CTRL's bits [31:0]: SRST with the written ENT_SRC and IRQ_EN, otherwise these two and then ABORT. -/
def State.writeCtrl (s : State) (value : Word) : State :=
  if value.getLsbD 1 then s.hardReset.setCtrl value
  else if value.getLsbD 0 then (s.setCtrl value).abort
  else s.setCtrl value

end Sys2Proof.Machine
end

