-- ==== Sys2Proof/Machine/Bus.lean ====
section
/-! DEFINITION. The register window (10_state.md rules R16 to R26) and the bus primitives MemRead and MemWrite (20_memory.md rules R36 to R47). -/

namespace Sys2Proof.Machine

open Sys2Proof

/-- The registers of R16's table. Log 13. -/
inductive Reg where
  | id
  | cmd
  | ctrl
  | status
  | retryLimit
  | seed
  | a
  | b
  | m
  | c
  | r0
  | r1
  | r2
  | attempts
  deriving DecidableEq, Repr

/-- R16: the byte offset of a register. -/
def Reg.offset : Reg → Nat
  | .id => 0x00
  | .cmd => 0x08
  | .ctrl => 0x10
  | .status => 0x18
  | .retryLimit => 0x20
  | .seed => 0x28
  | .a => 0x30
  | .b => 0x38
  | .m => 0x40
  | .c => 0x48
  | .r0 => 0x50
  | .r1 => 0x58
  | .r2 => 0x60
  | .attempts => 0x68

/-- R16, R43: the register at `off - (off mod 8)`; none at a reserved offset (R26). -/
def regAt (off : Nat) : Option Reg :=
  match off / 8 with
  | 0 => some .id
  | 1 => some .cmd
  | 2 => some .ctrl
  | 3 => some .status
  | 4 => some .retryLimit
  | 5 => some .seed
  | 6 => some .a
  | 7 => some .b
  | 8 => some .m
  | 9 => some .c
  | 10 => some .r0
  | 11 => some .r1
  | 12 => some .r2
  | 13 => some .attempts
  | _ => none

/-- R22: SEED as read; while a command runs any value, fresh at each read (log 10). -/
def State.seedWord (s : State) : Word :=
  if s.busy then Config.seedReadWhileBusy s.freeReads else s.seed

/-- R43: the readable value of each register. -/
def State.regValue (s : State) : Reg → Word
  | .id => Config.idValue
  | .cmd => 0#64
  | .ctrl => s.ctrlWord
  | .status => s.statusWord
  | .retryLimit => s.retryLimit
  | .seed => s.seedWord
  | .a => s.a
  | .b => s.b
  | .m => s.m
  | .c => s.c
  | .r0 => s.r0
  | .r1 => s.r1
  | .r2 => s.r2
  | .attempts => s.attempts

/-- R26, R43: the readable value of the eight bytes that hold an offset; reserved offsets read 0. -/
def State.windowWord (s : State) (off : Nat) : Word :=
  match regAt off with
  | some r => s.regValue r
  | none => 0#64

/-- What the bus answers a read with (R42, R43). -/
structure BusReply where
  error : Bool
  data : Word
  deriving DecidableEq, Repr

/-- R43: MemRead at an offset of the window; a bus error returns data 0 (R42). -/
def State.memRead (s : State) (off bytes : Nat) : BusReply :=
  if accessAdmitted off bytes then ⟨false, readLanes (s.windowWord off) off bytes⟩ else ⟨true, 0#64⟩

/-- R44: an admitted write at an offset of register `r`. -/
def State.writeReg (s : State) (r : Reg) (off bytes : Nat) (value : Word) : State :=
  match r with
  | .id => s
  | .cmd => if presentsLow off then s.deliverCmd (value.extractLsb' 0 32) else s
  | .ctrl => if presentsLow off then s.writeCtrl value else s
  | .status => if presentsLow off then s.acknowledge value else s
  | .retryLimit => { s with retryLimit := mergeLanes s.retryLimit value off bytes }
  | .seed => if s.busy then s else { s with seed := mergeLanes s.seed value off bytes }
  | .a => { s with a := mergeLanes s.a value off bytes }
  | .b => { s with b := mergeLanes s.b value off bytes }
  | .m => { s with m := mergeLanes s.m value off bytes }
  | .c => { s with c := mergeLanes s.c value off bytes }
  | .r0 => s
  | .r1 => s
  | .r2 => s
  | .attempts => s

/-- R44: MemWrite at an offset of the window; a write that is not admitted has no effect (R42), a reserved offset ignores it (R26). -/
def State.memWrite (s : State) (off bytes : Nat) (value : Word) : State :=
  if accessAdmitted off bytes then
    match regAt off with
    | some r => s.writeReg r off bytes value
    | none => s
  else s

/-- R36: the offset of an address in the window; none outside it. -/
def windowOffset (addr : Nat) : Option Nat :=
  if Config.rsacoreBase ≤ addr ∧ addr < Config.rsacoreBase + Config.windowBytes then some (addr - Config.rsacoreBase) else none

/-- The answer to an admitted read is put on the data lines (log 11); a SEED read while a command runs uses up one free value (log 10). Nothing else
changes (R43). -/
def State.afterRead (s : State) (off bytes : Nat) : State :=
  { s with
    busData := (s.memRead off bytes).data
    freeReads := if regAt off = some .seed ∧ s.busy = true then s.freeReads + 1 else s.freeReads }

/-- R42, R46: an access at an offset of the window, as one step; one that is not admitted is a fault of the host program. -/
def State.accessAt (s : State) (access : BusAccess) (off : Nat) : Host.Outcome State Fault Refusal :=
  match access with
  | .read _ bytes => if accessAdmitted off bytes then .next (s.afterRead off bytes) else .fault .busError
  | .write _ bytes value => if accessAdmitted off bytes then .next (s.memWrite off bytes value) else .fault .busError

/-- The address of an access. -/
def BusAccess.addr : BusAccess → Nat
  | .read addr _ => addr
  | .write addr _ _ => addr

/-- R36, R46: a host access; an address outside the window is the platform's (log 8). -/
def State.hostAccess (s : State) (access : BusAccess) : Host.Outcome State Fault Refusal :=
  match windowOffset access.addr with
  | some off => s.accessAt access off
  | none => .refused .outsideWindow

end Sys2Proof.Machine
end

