-- ==== Sys2Proof/Machine/Control.lean ====
section
/-! DEFINITION. The meanings of NOP and of the illegal command words (40_control.md rules R73, R74): the one sequencer step each takes. -/

namespace Sys2Proof.Machine

open Sys2Proof

/-- R73. -/
def execNop (s : State) : Host.Outcome State Fault Refusal :=
  .next (s.onRun fun _ => s.completeNop)

/-- R74. The word itself is not looked at again: it was decoded at the issue step (R60). -/
def execIllegal (_w : Word32) (s : State) : Host.Outcome State Fault Refusal :=
  .next (s.onRun fun run => s.raise run .illegalOp)

end Sys2Proof.Machine
end

