-- ==== Sys2Proof/Machine/ModArith.lean ====
section
/-! DEFINITION. The meanings of MODMUL, MODEXP and MODINV (41_modarith.md rules R78 to R84): the one sequencer step each takes. -/

namespace Sys2Proof.Machine

open Sys2Proof

/-- R79: `R0 = (A * B) mod M`, from the exact product. -/
def execModmul (s : State) : Host.Outcome State Fault Refusal :=
  .next <| s.onRun fun run =>
    if run.op.m = 0#64 then s.raise run .badModulus
    else s.complete run (narrow (run.op.a.toNat * run.op.b.toNat % run.op.m.toNat)) 0#64 0#64 ⟨false, false, false⟩

/-- R81: `R0 = A ^ B mod M`. -/
def execModexp (s : State) : Host.Outcome State Fault Refusal :=
  .next <| s.onRun fun run =>
    if run.op.m = 0#64 then s.raise run .badModulus
    else s.complete run (narrow (modExp run.op.a.toNat run.op.b.toNat run.op.m.toNat)) 0#64 0#64 ⟨false, false, false⟩

/-- R83: `R0` the inverse of `A` modulo `M` and FLAG 1, or `R0 = 0` and FLAG 0; `R1` the gcd. -/
def execModinv (s : State) : Host.Outcome State Fault Refusal :=
  .next <| s.onRun fun run =>
    if run.op.m = 0#64 then s.raise run .badModulus
    else if Nat.gcd run.op.a.toNat run.op.m.toNat = 1 then
      s.complete run (narrow (modInverse run.op.a.toNat run.op.m.toNat)) 1#64 0#64 ⟨true, false, false⟩
    else s.complete run 0#64 (narrow (Nat.gcd run.op.a.toNat run.op.m.toNat)) 0#64 ⟨false, false, false⟩

end Sys2Proof.Machine
end

