-- ==== Sys2Proof/Machine/Prime.lean ====
section
/-! DEFINITION. The meanings of PRIMETEST and PRIMEGEN (42_prime.md rules R89, R91, R93). -/

namespace Sys2Proof.Machine

open Sys2Proof

/-- R91: `R0` and FLAG say whether `A` is prime; WIDTH when `A` has more than 32 bits. -/
def execPrimetest (s : State) : Host.Outcome State Fault Refusal :=
  .next <| s.onRun fun run =>
    if fitsU32 run.op.a then
      s.complete run (if isPrime (lowU32 run.op.a) then 1#64 else 0#64) 0#64 0#64 ⟨isPrime (lowU32 run.op.a), false, false⟩
    else s.raise run .width

/-- R93, R89: one sequencer step of PRIMEGEN, a draw or the completion. -/
def execPrimegen (s : State) : Host.Outcome State Fault Refusal :=
  .next <| s.onRun fun run => s.proceed run (primegenProc run.words)

end Sys2Proof.Machine
end

