-- ==== Sys2Proof/Machine/Rsa.lean ====
section
/-! DEFINITION. The meanings of KEYGEN, ENCRYPT and DECRYPT (43_rsa.md rules R94, R97, R98). -/

namespace Sys2Proof.Machine

open Sys2Proof

/-- R94, R89: one sequencer step of KEYGEN, a draw or the completion. -/
def execKeygen (s : State) : Host.Outcome State Fault Refusal :=
  .next <| s.onRun fun run => s.proceed run (keygenProc run.words)

/-- R97: `R0 = A ^ EXP mod M`; OOR when `A >= M`; WIDTH, then BAD_MODULUS (R103). -/
def execEncrypt (s : State) : Host.Outcome State Fault Refusal :=
  .next <| s.onRun fun run =>
    if !fitsU32 run.op.a then s.raise run .width
    else if run.op.m = 0#64 then s.raise run .badModulus
    else s.complete run (narrow (modExp (lowU32 run.op.a) Config.publicExponent run.op.m.toNat)) 0#64 0#64
      ⟨false, outOfRange (lowU32 run.op.a) run.op.m.toNat, false⟩

/-- R98: is `(p, q)` malformed as a key: `p < 2`, `q < 2` or `p = q`? -/
def badKey (p q : Nat) : Bool := decide (p < 2) || decide (q < 2) || p == q

/-- R98: the recovered value `y = C ^ d mod p q`, with `d` the inverse of EXP modulo `(p - 1) (q - 1)`. -/
def recover (p q ciphertext : Nat) : Nat :=
  modExp ciphertext (modInverse Config.publicExponent ((p - 1) * (q - 1))) (p * q)

/-- R98: `R1 = y`, `R0` its low 32 bits, TRUNC when they differ; WIDTH, then BAD_KEY, then NO_PRIVATE_EXP (R103). -/
def execDecrypt (s : State) : Host.Outcome State Fault Refusal :=
  .next <| s.onRun fun run =>
    if !(fitsU32 run.op.a && fitsU32 run.op.b) then s.raise run .width
    else if badKey (lowU32 run.op.a) (lowU32 run.op.b) then s.raise run .badKey
    else if !exponentInvertible (lowU32 run.op.a) (lowU32 run.op.b) then s.raise run .noPrivateExp
    else
      s.complete run (narrow (recover (lowU32 run.op.a) (lowU32 run.op.b) run.op.c.toNat % 2 ^ 32))
        (narrow (recover (lowU32 run.op.a) (lowU32 run.op.b) run.op.c.toNat)) 0#64
        ⟨false, false, truncated (recover (lowU32 run.op.a) (lowU32 run.op.b) run.op.c.toNat)⟩

end Sys2Proof.Machine
end

