-- ==== Sys2Proof/Machine/Turns.lean ====
section
/-! DEFINITION. One turn of each agent (00_scope.md rule R14): the host's access, the sequencer's step, the entropy source's delivery; and the reset
input (70_reset_and_hazards.md rule R114). -/

namespace Sys2Proof.Machine

open Sys2Proof

/-- R68: the sequencer's step on the running command; an IDLE sequencer does nothing (R113). -/
def State.sequencerTurn (s : State) : Host.Outcome State Fault Refusal :=
  match s.seq with
  | .idle => .next s
  | .running run => exec run.op.op s

/-- R86, R88: the entropy source delivers `w`. The delivery ends the outstanding request and is the draw step; with no request outstanding nothing
takes the word (log 3, log 5). -/
def State.entropyTurn (s : State) (w : Word32) : Host.Outcome State Fault Refusal :=
  match s.seq with
  | .idle => .next s
  | .running run =>
    if run.request then exec run.op.op { s with seq := .running { run with request := false, port := some w } } else .next s

/-- A turn while `rst` is released. -/
def State.liveTurn (s : State) : Turn → Host.Outcome State Fault Refusal
  | .host access => s.hostAccess access
  | .sequencer => s.sequencerTurn
  | .entropy w => s.entropyTurn w
  | .reset asserted => .next (if asserted then { s with rst := true }.hardReset else s)

/-- R114: what a turn leaves when the reset input is held asserted. -/
def heldInReset : Host.Outcome State Fault Refusal → Host.Outcome State Fault Refusal
  | .next s => .next s.hardReset
  | .fault r => .fault r
  | .refused r => .refused r

/-- R114: a turn while `rst` is asserted, and the step that releases it: every register takes its reset value; a host read sees reset values. Log 6. -/
def State.resetTurn (s : State) : Turn → Host.Outcome State Fault Refusal
  | .host access => heldInReset (s.hardReset.hostAccess access)
  | .sequencer => .next s.hardReset
  | .entropy _ => .next s.hardReset
  | .reset asserted => .next { s with rst := asserted }.hardReset

/-- One turn. -/
def State.turn (s : State) (t : Turn) : Host.Outcome State Fault Refusal :=
  if s.rst then s.resetTurn t else s.liveTurn t

/-- The next turn and the state with that turn taken from the inbox; with nothing in the inbox the sequencer moves (log 2). -/
def State.takeTurn (s : State) : Turn × State :=
  match s.inbox with
  | [] => (.sequencer, s)
  | t :: rest => (t, { s with inbox := rest })

/-- The command word `w` issued to the sequencer (R65) whose step is the next turn. Log 1. -/
def State.startWith (s : State) (w : Word32) : State :=
  { ({ s with rst := false }.issue w) with inbox := .sequencer :: s.inbox }

end Sys2Proof.Machine
end

