-- ==== Sys2Proof/Machine/Step.lean ====
section
/-! DEFINITION. One step of the whole: the agent whose turn it is moves (20_memory.md rule R48). -/

namespace Sys2Proof.Machine

open Sys2Proof

/-- One step: the next turn of the inbox. -/
def step (s : State) : Host.Outcome State Fault Refusal :=
  s.takeTurn.2.turn s.takeTurn.1

/-- The state in which the very next step runs the command whose table bits are `w`: RSACORE fetches nothing (R27), a command word comes by a host
write to CMD (R18), so this is the state that write leaves, with the sequencer to move next. Log 1. -/
def State.withFetchWord (s : State) (nbits w : Nat) : State :=
  s.startWith (BitVec.ofNat 32 (w % 2 ^ nbits))

end Sys2Proof.Machine
end

