-- ==== Sys2Proof/Machine/HostNotation.lean ====
section
/-! DEFINITION. The host command notation (30_encoding.md rules R61 to R64): register statements as bus accesses, pseudo-statements and their expansions,
control statements, and the encoding of a program as the lines of its accesses over a run. It stands beside the machine: a host program is an agent outside RSACORE. Log 21. -/

namespace Sys2Proof.Machine

open Sys2Proof

/-- R61: `.lo` and `.hi`. -/
inductive RegHalf where
  | lo
  | hi
  deriving DecidableEq, Repr

/-- R61: the byte offset of a half within its register. -/
def RegHalf.offset : RegHalf → Nat
  | .lo => 0
  | .hi => 4

/-- The expressions of R61 to R63 over host variables. DESIGN CHOICE (log 23): the spec defines no grammar of `<expr>`; these are literals, variables and
the operators its pseudo-statements and programs use. -/
inductive HostExpr where
  | lit (v : Word)
  | var (x : String)
  | and (e f : HostExpr)
  | or (e f : HostExpr)
  | add (e f : HostExpr)
  deriving DecidableEq, Repr

/-- R61, R62: the statements. -/
inductive HostStmt where
  | wr (r : Reg) (e : HostExpr)
  | wr32 (r : Reg) (h : RegHalf) (e : HostExpr)
  | rd (r : Reg) (x : String)
  | rd32 (r : Reg) (h : RegHalf) (x : String)
  | expect (x : String) (e : HostExpr)
  | label (l : String)
  | bnz (x : String) (mask : Word) (l : String)
  | bz (x : String) (mask : Word) (l : String)
  | jump (l : String)
  | set (x : String) (e : HostExpr)
  | halt
  deriving DecidableEq, Repr

/-- R63: the pseudo-statements. `wait` carries its fresh label. -/
inductive PseudoStmt where
  | cmd (i : Instr)
  | cmdw (w : Word32)
  | wait (fresh : String)
  | clrdone
  | abort
  | srst
  | src (internal : Bool)
  deriving DecidableEq, Repr

/-- R63: the expansions. -/
def PseudoStmt.expand : PseudoStmt → List HostStmt
  | .cmd i => [.wr32 .cmd .lo (.lit ((encode i).setWidth 64))]
  | .cmdw w => [.wr32 .cmd .lo (.lit (w.setWidth 64))]
  | .wait fresh => [.label fresh, .rd .status "s", .bnz "s" 0x1#64 fresh]
  | .clrdone => [.wr32 .status .lo (.lit 0x2#64)]
  | .abort => [.rd32 .ctrl .lo "c", .wr32 .ctrl .lo (.or (.var "c") (.lit 0x1#64))]
  | .srst => [.wr32 .ctrl .lo (.lit 0x2#64)]
  | .src internal =>
    [.rd32 .ctrl .lo "c", .wr32 .ctrl .lo (.or (.and (.var "c") (.lit 0x200#64)) (.lit (if internal then 0x100#64 else 0x0#64)))]

/-- A host program's place: the statements, the index of the next one, the host variables, and whether it halted or an EXPECT failed. -/
structure HostProgram where
  stmts : List HostStmt
  pc : Nat
  vars : List (String × Word)
  halted : Bool
  failed : Bool
  deriving DecidableEq, Repr

/-- A host variable's value; a free value for one never set (log 21). -/
def HostProgram.value (h : HostProgram) (x : String) : Word :=
  match h.vars.find? fun entry => entry.1 == x with
  | some entry => entry.2
  | none => Config.unsetHostVariable x

/-- The value of an expression. -/
def HostProgram.eval (h : HostProgram) : HostExpr → Word
  | .lit v => v
  | .var x => h.value x
  | .and e f => h.eval e &&& h.eval f
  | .or e f => h.eval e ||| h.eval f
  | .add e f => h.eval e + h.eval f

/-- Go to the next statement. -/
def HostProgram.advance (h : HostProgram) : HostProgram := { h with pc := h.pc + 1 }

/-- Set a host variable and go on. -/
def HostProgram.assign (h : HostProgram) (x : String) (v : Word) : HostProgram :=
  { h.advance with vars := (x, v) :: h.vars.filter fun entry => entry.1 != x }

/-- Go to a label. DESIGN CHOICE: of two places with one label the first is reached (log 24), and with no such label the program halts (log 21). -/
def HostProgram.goto (h : HostProgram) (l : String) : HostProgram :=
  match h.stmts.findIdx? fun st => st == .label l with
  | some k => { h with pc := k }
  | none => { h with halted := true }

/-- R61: the bus access of the next statement, if it is a register statement. -/
def HostProgram.nextAccess (h : HostProgram) : Option BusAccess :=
  match h.stmts[h.pc]? with
  | some (.wr r e) => some (.write (Config.rsacoreBase + r.offset) 8 (h.eval e))
  | some (.wr32 r half e) => some (.write (Config.rsacoreBase + (r.offset + half.offset)) 4 (h.eval e))
  | some (.rd r _) => some (.read (Config.rsacoreBase + r.offset) 8)
  | some (.rd32 r half _) => some (.read (Config.rsacoreBase + (r.offset + half.offset)) 4)
  | some (.expect _ _) => none
  | some (.label _) => none
  | some (.bnz _ _ _) => none
  | some (.bz _ _ _) => none
  | some (.jump _) => none
  | some (.set _ _) => none
  | some .halt => none
  | none => none

/-- R61, R62: the host's side of the next statement, given the data the bus returned to it. -/
def HostProgram.afterStmt (h : HostProgram) (data : Word) : HostProgram :=
  match h.stmts[h.pc]? with
  | some (.wr _ _) => h.advance
  | some (.wr32 _ _ _) => h.advance
  | some (.rd _ x) => h.assign x data
  | some (.rd32 _ _ x) => h.assign x data
  | some (.expect x e) => { h.advance with failed := h.failed || h.value x != h.eval e }
  | some (.label _) => h.advance
  | some (.bnz x mask l) => if h.value x &&& mask != 0#64 then h.goto l else h.advance
  | some (.bz x mask l) => if h.value x &&& mask == 0#64 then h.goto l else h.advance
  | some (.jump l) => h.goto l
  | some (.set x e) => h.assign x (h.eval e)
  | some .halt => { h with halted := true }
  | none => { h with halted := true }

/-- The host's turn under a host program: its next statement, with its bus access if it has one. -/
def HostProgram.turn (h : HostProgram) (s : State) : Host.Outcome (HostProgram × State) Fault Refusal :=
  if h.halted then .next (h, s)
  else match h.nextAccess with
    | none => .next (h.afterStmt 0#64, s)
    | some access =>
      match s.turn (.host access) with
      | .next s' => .next (h.afterStmt s'.busData, s')
      | .fault r => .fault r
      | .refused r => .refused r

/-- R64: one line of a host program's encoding; offsets are relative to `RSACORE_BASE`. -/
inductive BusLine where
  | w8 (off : Nat) (value : Word)
  | w4 (off : Nat) (value : Word32)
  | r8 (off : Nat)
  | r4 (off : Nat)
  deriving DecidableEq, Repr

/-- R64: the line of the next statement; control statements give none. -/
def HostProgram.nextLine (h : HostProgram) : Option BusLine :=
  match h.stmts[h.pc]? with
  | some (.wr r e) => some (.w8 r.offset (h.eval e))
  | some (.wr32 r half e) => some (.w4 (r.offset + half.offset) ((h.eval e).setWidth 32))
  | some (.rd r _) => some (.r8 r.offset)
  | some (.rd32 r half _) => some (.r4 (r.offset + half.offset))
  | some (.expect _ _) => none
  | some (.label _) => none
  | some (.bnz _ _ _) => none
  | some (.bz _ _ _) => none
  | some (.jump _) => none
  | some (.set _ _) => none
  | some .halt => none
  | none => none

/-- The bus access a line stands for. -/
def BusLine.access : BusLine → BusAccess
  | .w8 off value => .write (Config.rsacoreBase + off) 8 value
  | .w4 off value => .write (Config.rsacoreBase + off) 4 (value.setWidth 64)
  | .r8 off => .read (Config.rsacoreBase + off) 8
  | .r4 off => .read (Config.rsacoreBase + off) 4

/-- R64: a number in hexadecimal, as the lines write it. -/
def hexDigits (n : Nat) : String := String.ofList (Nat.toDigits 16 n)

/-- R64: an offset is written with two capital digits. -/
def hexOffset (off : Nat) : String :=
  String.ofList ((if off < 16 then ['0'] else []) ++ (Nat.toDigits 16 off).map Char.toUpper)

/-- R64: the text of a line. -/
def BusLine.text : BusLine → String
  | .w8 off value => "W8 +" ++ hexOffset off ++ " 0x" ++ hexDigits value.toNat
  | .w4 off value => "W4 +" ++ hexOffset off ++ " 0x" ++ hexDigits value.toNat
  | .r8 off => "R8 +" ++ hexOffset off
  | .r4 off => "R4 +" ++ hexOffset off

/-- R48, R64: one move of a run of a host program beside RSACORE: the program's next statement, or a turn of another agent (R14, R114). -/
inductive RunMove where
  | statement
  | sequencer
  | entropy (w : Word32)
  | reset (asserted : Bool)
  deriving DecidableEq, Repr

/-- The turn of RSACORE that a move of another agent is. -/
def RunMove.agentTurn : RunMove → Option Turn
  | .statement => none
  | .sequencer => some .sequencer
  | .entropy w => some (.entropy w)
  | .reset asserted => some (.reset asserted)

/-- The bus access of a host's turn. -/
def Turn.hostAccess : Turn → Option BusAccess
  | .host access => some access
  | .sequencer => none
  | .entropy _ => none
  | .reset _ => none

/-- A turn of an agent other than the host. -/
def Turn.otherAgent : Turn → Option Turn
  | .host _ => none
  | .sequencer => some .sequencer
  | .entropy w => some (.entropy w)
  | .reset asserted => some (.reset asserted)

/-- What a move leaves of the program and of RSACORE. -/
def HostProgram.move (h : HostProgram) (s : State) (m : RunMove) : Host.Outcome (HostProgram × State) Fault Refusal :=
  match m.agentTurn with
  | none => h.turn s
  | some turn =>
    match s.turn turn with
    | .next s' => .next (h, s')
    | .fault r => .fault r
    | .refused r => .refused r

/-- R64: the lines a move performs: one for a register statement, none for a control statement, a halted program or another agent's move. -/
def HostProgram.moveLines (h : HostProgram) (m : RunMove) : List BusLine :=
  match m.agentTurn with
  | none => if h.halted then [] else h.nextLine.toList
  | some _ => []

/-- A run of a host program beside RSACORE: the lines of the accesses performed, in order, and where the run ends. -/
structure HostRun where
  lines : List BusLine
  outcome : Host.Outcome (HostProgram × State) Fault Refusal

/-- R64: the run of a host program for an interleaving of its statements with the other agents' moves. A loop gives one group of lines for each iteration
the run takes. -/
def HostProgram.run (h : HostProgram) (s : State) : List RunMove → HostRun
  | [] => ⟨[], .next (h, s)⟩
  | m :: moves =>
    match h.move s m with
    | .next (h', s') => ⟨h.moveLines m ++ (h'.run s' moves).lines, (h'.run s' moves).outcome⟩
    | .fault r => ⟨h.moveLines m, .fault r⟩
    | .refused r => ⟨h.moveLines m, .refused r⟩

/-- R64: the encoding of a host program over a run: its lines as text. -/
def HostProgram.encoding (h : HostProgram) (s : State) (moves : List RunMove) : List String :=
  (h.run s moves).lines.map BusLine.text

end Sys2Proof.Machine
end

