-- ==== Sys2Proof/Machine/Reference.lean ====
section
/-! DEFINITION. The reference algorithms the spec gives beside the exact rules, and KEYGEN's procedure in the shape of its pseudocode. The machine does
not call them; statements say that they agree with what it computes. -/

namespace Sys2Proof.Machine

open Sys2Proof

/-- R80: `2 r mod m` for `r < m`, no value of which exceeds 2^64 - 1. -/
def doubleMod (r m : Nat) : Nat := if m - r ≤ r then r - (m - r) else r + r

/-- R80: `(r + a') mod m` for `r, a' < m`. -/
def addMod (r a' m : Nat) : Nat := if m - a' ≤ r then r - (m - a') else r + a'

/-- R80: the bit-at-a-time product, bits `k - 1` down to 0 of `b` still to scan. -/
def serialMulLoop (a' b m : Nat) : Nat → Nat → Nat
  | 0, r => r
  | k + 1, r =>
    serialMulLoop a' b m k (if b.testBit k then addMod (doubleMod r m) a' m else doubleMod r m)

/-- R80: the bit-at-a-time form of MODMUL. -/
def serialMul (a b m : Nat) : Nat := serialMulLoop (a % m) b m 64 0

/-- R92: `n - 1 = d * 2 ^ s` with `d` odd, dividing by 2 at most `fuel` times: answers `d` and `s`. -/
def oddPart : Nat → Nat → Nat → Nat × Nat
  | 0, d, s => (d, s)
  | fuel + 1, d, s => if d % 2 = 1 then (d, s) else oddPart fuel (d / 2) (s + 1)

/-- R92: is one of the `s` values `x, x ^ 2, x ^ 4, …` modulo `n` equal to `n - 1`? -/
def reachesMinusOne (n : Nat) : Nat → Nat → Bool
  | 0, _ => false
  | s + 1, x => x == n - 1 || reachesMinusOne n s (x * x % n)

/-- R92: the check of one base `a`. -/
def passesBase (n d s a : Nat) : Bool :=
  a % n == 0 || modExp a d n == 1 || reachesMinusOne n s (modExp a d n)

/-- R92: the informative Miller-Rabin test with bases 2, 7 and 61. The machine uses `isPrime`, as R92 demands. -/
def millerRabin (n : Nat) : Bool :=
  if n < 2 then false
  else if n = 2 then true
  else if n % 2 = 0 then false
  else
    let (d, s) := oddPart 32 (n - 1) 0
    passesBase n d s 2 && passesBase n d s 7 && passesBase n d s 61

/-- R93: `gen_prime()` on a list of words: the prime and the words left. -/
def genPrime : List Word32 → Option (Word × List Word32)
  | [] => none
  | w :: ws => if candPrime w then some (cand w, ws) else genPrime ws

/-- R94: `q <- gen_prime(); while q == p: q <- gen_prime()`, at most `n` rounds. -/
def genOther (p : Word) : Nat → List Word32 → Option (Word × List Word32)
  | 0, _ => none
  | n + 1, ws =>
    match genPrime ws with
    | none => none
    | some (q, rest) => if q = p then genOther p n rest else some (q, rest)

/-- R94: KEYGEN's loop, at most `n` rounds. -/
def keygenLoop : Nat → List Word32 → ProcResult
  | 0, _ => .need
  | n + 1, ws =>
    match genPrime ws with
    | none => .need
    | some (p, ws1) =>
      match genOther p (ws1.length + 1) ws1 with
      | none => .need
      | some (q, ws2) =>
        if exponentInvertible p.toNat q.toNat then .done p q (BitVec.ofNat 64 (p.toNat * q.toNat)) else keygenLoop n ws2

/-- R94: the procedure of the pseudocode. Each round takes words, so `length + 1` rounds are as many as it can go. -/
def keygenPseudocode (words : List Word32) : ProcResult := keygenLoop (words.length + 1) words

/-- R87: the state of the internal generator after `k` draws. -/
def seedAfter (k : Nat) (s : Word) : Word := (fun seed => (splitmixNext seed).1)^[k] s

/-- R87: the first `k` words of the internal generator. -/
def seedWords : Nat → Word → List Word32
  | 0, _ => []
  | k + 1, s => (splitmixNext s).2 :: seedWords k (splitmixNext s).1

end Sys2Proof.Machine
end

