-- ==== Sys2Proof/Machine/Schedule.lean ====
section
/-! DEFINITION. Unending runs and their fairness (00_scope.md rule R8, 70_reset_and_hazards.md rule R125): a schedule gives one turn for every step, and the
assumptions a claim of termination must state are predicates of a schedule and a start state. The machine itself assumes none of them. Log 20. -/

namespace Sys2Proof.Machine

open Sys2Proof

/-- PARAMETER (R8, U7, U8): a turn for each step, for ever. The words of its entropy turns, in order, are R8's `EntropyStream`. -/
abbrev Schedule := Nat → Turn

/-- `n` steps under a schedule: before each step its turn is put in the inbox. -/
def Schedule.run (sched : Schedule) (s : State) : Nat → Host.Outcome State Fault Refusal
  | 0 => .next s
  | n + 1 =>
    match sched.run s n with
    | .next t => step { t with inbox := [sched n] }
    | .fault r => .fault r
    | .refused r => .refused r

/-- The first `n` turns of a schedule, as an inbox. -/
def Schedule.turns (sched : Schedule) (n : Nat) : List Turn := (List.range n).map sched

/-- R34, R86: is a word from the entropy port needed before the running command can go on? -/
def State.awaitsWord (s : State) : Bool :=
  match s.seq with
  | .idle => false
  | .running run => (Run.after run.op run.words).request

/-- R125: a RUNNING sequencer whose next step is enabled. A draw from the port is enabled only by a delivery. -/
def State.sequencerEnabled (s : State) : Bool := s.busy && !s.awaitsWord

/-- Neither a fault nor a refusal stops the run: the host program makes no bus error and stays in the window. -/
def Schedule.GoesOn (sched : Schedule) (s : State) : Prop := ∀ n, ∃ t, sched.run s n = .next t

/-- R125: weak fairness of the sequencer. From every point on, the sequencer takes a turn or its step is at some point not enabled. -/
def Schedule.WeaklyFair (sched : Schedule) (s : State) : Prop :=
  ∀ n, ∃ k, n ≤ k ∧ (sched k = .sequencer ∨ ∃ t, sched.run s k = .next t ∧ t.sequencerEnabled = false)

/-- R8, R125: `entropy_fair`. From every point on, the entropy source delivers a word or at some point none is awaited. -/
def Schedule.EntropyFair (sched : Schedule) (s : State) : Prop :=
  ∀ n, ∃ k, n ≤ k ∧ ((∃ w, sched k = .entropy w) ∨ ∃ t, sched.run s k = .next t ∧ t.awaitsWord = false)

end Sys2Proof.Machine
end

