-- ==== Sys2Proof/Safety.lean ====
section
/-! DEFINITION. The terms claims are made in: what a completion and an error completion leave, what a host access may touch, and the invariant of
RSACORE's states. -/

namespace Sys2Proof.Machine

open Sys2Proof

/-- Everything a sequencer step of a command leaves alone: CTRL, RETRY_LIMIT, the operand registers, LASTOP, CMD_OVR, the reset line and the model's
own fields (R23, R69, R70). -/
structure SameHostSide (s t : State) : Prop where
  ctrl : t.ctrl = s.ctrl
  retryLimit : t.retryLimit = s.retryLimit
  a : t.a = s.a
  b : t.b = s.b
  m : t.m = s.m
  c : t.c = s.c
  lastop : t.status.lastop = s.status.lastop
  cmdOvr : t.status.cmdOvr = s.status.cmdOvr
  rst : t.rst = s.rst
  inbox : t.inbox = s.inbox
  busData : t.busData = s.busData
  freeReads : t.freeReads = s.freeReads

/-- R69: `t` is what a successful completion of `run` with these results leaves of `s`. -/
structure Completed (s t : State) (run : Run) (r0 r1 r2 : Nat) (flag oor trunc : Bool) : Prop where
  r0 : t.r0.toNat = r0
  r1 : t.r1.toNat = r1
  r2 : t.r2.toNat = r2
  attempts : run.words.length < 2 ^ 64 → t.attempts.toNat = run.words.length
  flag : t.status.flag = flag
  oor : t.status.oor = oor
  trunc : t.status.trunc = trunc
  err : t.status.err = false
  errcode : t.status.errcode.code = 0#4
  busy : t.busy = false
  done : t.status.done = true
  seed : t.seed = s.seed
  rest : SameHostSide s t

/-- R70, R104: `t` is what an error completion of `run` with this code number leaves of `s`. -/
structure Failed (s t : State) (run : Run) (code : BitVec 4) : Prop where
  r0 : t.r0 = 0#64
  r1 : t.r1 = 0#64
  r2 : t.r2 = 0#64
  attempts : run.words.length < 2 ^ 64 → t.attempts.toNat = run.words.length
  flag : t.status.flag = false
  oor : t.status.oor = false
  trunc : t.status.trunc = false
  err : t.status.err = true
  errcode : t.status.errcode.code = code
  busy : t.busy = false
  done : t.status.done = true
  seed : t.seed = s.seed
  rest : SameHostSide s t

/-- R68, R88: `t` is what a draw step leaves of `s`: one word more, and nothing else but SEED and the hidden request and port. -/
structure Drew (s t : State) (run : Run) (w : Word32) (seed : Word) : Prop where
  running : ∃ run', t.seq = .running run' ∧ run'.op = run.op ∧ run'.words = run.words ++ [w] ∧ run'.port = none
  seed : t.seed = seed
  r0 : t.r0 = s.r0
  r1 : t.r1 = s.r1
  r2 : t.r2 = s.r2
  attempts : t.attempts = s.attempts
  status : t.status = s.status
  rest : SameHostSide s t

/-- R114: every register of the spec at its reset value and the sequencer IDLE. -/
structure AtReset (s : State) : Prop where
  id : s.memRead 0x00 8 = ⟨false, 0x0000000152534143#64⟩
  ctrl : s.ctrlWord = 0#64
  status : s.statusWord = 0#64
  retryLimit : s.retryLimit = 0#64
  seed : s.seed = 0#64
  a : s.a = 0#64
  b : s.b = 0#64
  m : s.m = 0#64
  c : s.c = 0#64
  r0 : s.r0 = 0#64
  r1 : s.r1 = 0#64
  r2 : s.r2 = 0#64
  attempts : s.attempts = 0#64
  seq : s.seq = .idle
  irq : s.irq = false

/-- What holds of a running command between steps (R28, R30, R31, R32, R34, R65, R88, R89). -/
structure RunInv (s : State) (run : Run) : Prop where
  /-- R28: at command start these are cleared, and only a completion writes them. -/
  flags : s.status = s.status.started s.status.lastop
  /-- R65: the snapshot's command is a decoded word, and LASTOP is that word's OP field. -/
  wellFormed : run.op.op.wellFormed = true
  lastop : s.status.lastop = (encode run.op.op).extractLsb' 0 4
  /-- R34: the request is up exactly while a word from the port is needed; no word waits on the port. -/
  level : run = Run.after run.op run.words
  /-- R88: the cap is never passed. -/
  capped : run.op.limit ≠ 0#64 → run.words.length ≤ run.op.limit.toNat
  /-- R89: every word was drawn because the procedure needed it. -/
  needed : ∀ k, k < run.words.length → wantsWord run.op.op (run.words.take k) = true

/-- The invariant of RSACORE. -/
structure Inv (s : State) : Prop where
  /-- R20, R100: ERR is 1 exactly when ERRCODE is nonzero. -/
  err : s.status.err = true ↔ s.status.errcode ≠ .none
  /-- R70, R104: while ERR is 1 the results are 0. -/
  zeroed : s.status.err = true → s.r0 = 0#64 ∧ s.r1 = 0#64 ∧ s.r2 = 0#64 ∧ s.status.flag = false ∧ s.status.oor = false ∧ s.status.trunc = false
  /-- R71: FLAG is 1 only after MODINV or PRIMETEST, OOR only after ENCRYPT, TRUNC only after DECRYPT. -/
  flag : s.status.flag = true → s.status.lastop = 3#4 ∨ s.status.lastop = 4#4
  oor : s.status.oor = true → s.status.lastop = 7#4
  trunc : s.status.trunc = true → s.status.lastop = 8#4
  running : ∀ run, s.seq = .running run → RunInv s run
  /-- R114: while `rst` is asserted every register is at its reset value. -/
  held : s.rst = true → s = s.hardReset

/-- R72, R87: the words of a running command with the internal source are the first words of the generator started at `seed`, and SEED has advanced as
often. -/
def SeedFollows (seed : Word) (s : State) : Prop :=
  ∀ run, s.seq = .running run → run.op.src = true →
    run.words = seedWords run.words.length seed ∧ s.seed = seedAfter run.words.length seed

/-- A step that goes on: the machine neither faults nor refuses. -/
def GoesOn (s : State) : Prop := ∃ t, step s = .next t

/-- A safe run of `k` steps: no fault and no refusal on the way. -/
def SafeFor : Nat → State → Prop
  | 0, _ => True
  | k + 1, s => ∃ t, step s = .next t ∧ SafeFor k t

end Sys2Proof.Machine
end

