-- ==== Sys2Proof/Certificates/Slice0/Obligations.lean ====
section
/-! DEFINITION. The statements about RSACORE, each with the rule of spec/ it formalises. -/

open Sys2Proof Sys2Proof.Machine

/-! ### Encoding -/

/-- R57: the opcode map; the reserved opcodes are illegal. -/
def Obligations.OpcodeSelectsCommand : Prop :=
  decodeWord 0x0#32 = .nop ∧ decodeWord 0x1#32 = .modmul ∧ decodeWord 0x2#32 = .modexp ∧ decodeWord 0x3#32 = .modinv ∧
    decodeWord 0x4#32 = .primetest ∧ decodeWord 0x5#32 = .primegen ∧ decodeWord 0x6#32 = .keygen ∧ decodeWord 0x7#32 = .encrypt ∧
    decodeWord 0x8#32 = .decrypt ∧ ∀ op : BitVec 4, 9 ≤ op.toNat → decodeWord (op.setWidth 32) = .illegal (op.setWidth 32)

/-- Decoding an encoded well-formed instruction gives it back, as a word and as bytes with any bytes after them. -/
def Obligations.DecodeOfEncode : Prop :=
  ∀ i : Instr, i.wellFormed = true →
    decodeWord (encode i) = i ∧ ∀ rest : List Byte, decodeBytes (encodeBytes i ++ rest) = .ok (i, rest)

/-- Every one of the 2^32 command words is the word of exactly the instruction it decodes to, and is illegal exactly when R59 says so. -/
def Obligations.EncodeOfDecode : Prop :=
  ∀ w : Word32, encode (decodeWord w) = w ∧ (decodeWord w).wellFormed = true ∧
    (decodeWord w = .illegal w ↔ w.toNat / 16 ≠ 0 ∨ 9 ≤ w.toNat % 16)

/-! ### The life of a command -/

/-- R65: a host write that delivers a command word to CMD while BUSY = 0 is accepted; everything the issue step changes, and that nothing else does. -/
def Obligations.CmdWriteIssuesCommand : Prop :=
  ∀ (s : State) (bytes : Nat) (value : Word) (rest : List Turn), s.rst = false → s.busy = false → (bytes = 4 ∨ bytes = 8) →
    s.inbox = .host (.write (Config.rsacoreBase + 0x08) bytes value) :: rest →
    ∃ t run, step s = .next t ∧ t.seq = .running run ∧
      run.op = ⟨decodeWord (value.extractLsb' 0 32), s.a, s.b, s.m, s.c, s.retryLimit, s.ctrl.entSrc⟩ ∧ run.words = [] ∧ t.busy = true ∧
      t.status.done = false ∧ t.status.err = false ∧ t.status.flag = false ∧ t.status.oor = false ∧ t.status.trunc = false ∧
      t.status.errcode.code = 0#4 ∧ t.status.lastop = value.extractLsb' 0 4 ∧ t.status.cmdOvr = s.status.cmdOvr ∧
      t = { s with inbox := rest, seq := t.seq, status := t.status }

/-- R66: a command word that comes while BUSY = 1 is dropped, and the only effect is CMD_OVR. -/
def Obligations.CmdWriteWhileBusyDropped : Prop :=
  ∀ (s : State) (bytes : Nat) (value : Word) (rest : List Turn), s.rst = false → s.busy = true → (bytes = 4 ∨ bytes = 8) →
    s.inbox = .host (.write (Config.rsacoreBase + 0x08) bytes value) :: rest →
    step s = .next { s with inbox := rest, status := { s.status with cmdOvr := true } }

/-- R18: CMD takes bits [31:0], ignores bits [63:32] and a write to offset 0x0C, and reads 0. -/
def Obligations.CmdRegisterTakesLowWord : Prop :=
  ∀ (s : State) (value : Word), s.memWrite 0x08 4 value = s.deliverCmd (value.extractLsb' 0 32) ∧
    s.memWrite 0x08 8 value = s.deliverCmd (value.extractLsb' 0 32) ∧ s.memWrite 0x0C 4 value = s ∧
    s.memRead 0x08 8 = ⟨false, 0#64⟩ ∧ s.memRead 0x08 4 = ⟨false, 0#64⟩ ∧ s.memRead 0x0C 4 = ⟨false, 0#64⟩

/-- A step runs the decoded command: the sequencer's turn is `exec` of the snapshot's command; after a command word is accepted the next turn (the
sequencer's, when the inbox is empty: log 2) is `exec` of its decoding; and the state `withFetchWord` gives runs exactly its word. -/
def Obligations.StepRunsDecodedCommand : Prop :=
  (∀ (s : State) (run : Run) (rest : List Turn), s.rst = false → s.seq = .running run → s.inbox = .sequencer :: rest →
    step s = exec run.op.op { s with inbox := rest }) ∧
  (∀ (s : State) (w : Word32), s.rst = false → s.busy = false → s.inbox = [] →
    step (s.deliverCmd w) = exec (decodeWord w) (s.deliverCmd w)) ∧
  (∀ (s : State) (w : Word32), step (s.withFetchWord 32 w.toNat) = exec (decodeWord w) ({ s with rst := false }.issue w))

/-- The word the external source delivers while a request is outstanding is the draw step (R86, R88): `exec` with that word on the port. -/
def Obligations.DeliveryRunsDrawStep : Prop :=
  ∀ (s : State) (run : Run) (w : Word32) (rest : List Turn), s.rst = false → s.seq = .running run → s.inbox = .entropy w :: rest →
    (run.request = true →
      step s = exec run.op.op { s with inbox := rest, seq := .running { run with request := false, port := some w } }) ∧
    (run.request = false → step s = .next { s with inbox := rest })

/-- R68: every command other than PRIMEGEN and KEYGEN takes exactly one sequencer step, its completion. -/
def Obligations.OtherCommandsCompleteInOneStep : Prop :=
  ∀ (i : Instr) (s : State) (run : Run), i ≠ .primegen → i ≠ .keygen → s.seq = .running run →
    ∃ t, exec i s = .next t ∧ t.busy = false ∧ t.status.done = true ∧ t.seed = s.seed ∧ SameHostSide s t

/-! ### The commands' results -/

/-- R73: NOP. -/
def Obligations.NopResult : Prop :=
  encode .nop = 0x0#32 ∧ ∀ (s : State) (run : Run), s.seq = .running run →
    ∃ t, exec .nop s = .next t ∧ t.status.flag = false ∧ t.status.oor = false ∧ t.status.trunc = false ∧ t.status.err = false ∧
      t.status.errcode.code = 0#4 ∧ t.busy = false ∧ t.status.done = true ∧ t.r0 = s.r0 ∧ t.r1 = s.r1 ∧ t.r2 = s.r2 ∧
      t.attempts = s.attempts ∧ t.seed = s.seed ∧ SameHostSide s t

/-- R74: an illegal word that was accepted completes at its first sequencer step with ILLEGAL_OP, LASTOP its low four bits, results and ATTEMPTS 0. -/
def Obligations.IllegalWordResult : Prop :=
  ∀ (s : State) (w : Word32), s.busy = false → (w.toNat / 16 ≠ 0 ∨ 9 ≤ w.toNat % 16) →
    decodeWord w = .illegal w ∧
    ∃ run t, (s.deliverCmd w).seq = .running run ∧ exec (.illegal w) (s.deliverCmd w) = .next t ∧
      Failed (s.deliverCmd w) t run 1#4 ∧ t.status.lastop.toNat = w.toNat % 16 ∧ t.attempts = 0#64

/-- R79: MODMUL, the exact product reduced, or BAD_MODULUS. -/
def Obligations.ModmulResult : Prop :=
  encode .modmul = 0x1#32 ∧ ∀ (s : State) (run : Run), s.seq = .running run →
    ∃ t, exec .modmul s = .next t ∧
      (run.op.m.toNat ≠ 0 → Completed s t run (run.op.a.toNat * run.op.b.toNat % run.op.m.toNat) 0 0 false false false) ∧
      (run.op.m.toNat = 0 → Failed s t run 2#4)

/-- R81: MODEXP, the exact power reduced (`x ^ 0 = 1` for every `x`), or BAD_MODULUS. -/
def Obligations.ModexpResult : Prop :=
  encode .modexp = 0x2#32 ∧ ∀ (s : State) (run : Run), s.seq = .running run →
    ∃ t, exec .modexp s = .next t ∧
      (run.op.m.toNat ≠ 0 → Completed s t run (run.op.a.toNat ^ run.op.b.toNat % run.op.m.toNat) 0 0 false false false) ∧
      (run.op.m.toNat = 0 → Failed s t run 2#4)

/-- R83: MODINV, the unique inverse in `[0, M)` with FLAG, or no inverse with the gcd in R1, or BAD_MODULUS. -/
def Obligations.ModinvResult : Prop :=
  encode .modinv = 0x3#32 ∧ ∀ (s : State) (run : Run), s.seq = .running run →
    ∃ t, exec .modinv s = .next t ∧
      (run.op.m.toNat = 0 → Failed s t run 2#4) ∧
      (run.op.m.toNat ≠ 0 → Nat.gcd run.op.a.toNat run.op.m.toNat ≠ 1 →
        Completed s t run 0 (Nat.gcd run.op.a.toNat run.op.m.toNat) 0 false false false) ∧
      (run.op.m.toNat ≠ 0 → Nat.gcd run.op.a.toNat run.op.m.toNat = 1 →
        ∃ x, x < run.op.m.toNat ∧ run.op.a.toNat * x % run.op.m.toNat = 1 % run.op.m.toNat ∧
          (∀ y, y < run.op.m.toNat → run.op.a.toNat * y % run.op.m.toNat = 1 % run.op.m.toNat → y = x) ∧
          Completed s t run x 1 0 true false false)

/-- R91: PRIMETEST is exact, and WIDTH refuses an operand of more than 32 bits. -/
def Obligations.PrimetestResult : Prop :=
  encode .primetest = 0x4#32 ∧ ∀ (s : State) (run : Run), s.seq = .running run →
    ∃ t, exec .primetest s = .next t ∧
      (2 ^ 32 ≤ run.op.a.toNat → Failed s t run 3#4) ∧
      (run.op.a.toNat < 2 ^ 32 → Nat.Prime run.op.a.toNat → Completed s t run 1 0 0 true false false) ∧
      (run.op.a.toNat < 2 ^ 32 → ¬ Nat.Prime run.op.a.toNat → Completed s t run 0 0 0 false false false)

/-- R93: PRIMEGEN completes with the first candidate that is prime; every earlier one was resampled. -/
def Obligations.PrimegenResult : Prop :=
  encode .primegen = 0x5#32 ∧ ∀ (s : State) (run : Run) (before : List Word32) (w : Word32), s.seq = .running run →
    run.words = before ++ [w] → (∀ v ∈ before, ¬ Nat.Prime (v ||| 0x80000001#32).toNat) → Nat.Prime (w ||| 0x80000001#32).toNat →
    ∃ t, exec .primegen s = .next t ∧ Completed s t run (w ||| 0x80000001#32).toNat 0 0 false false false

/-- R93, R89: PRIMEGEN needs another word exactly while no candidate so far is prime. -/
def Obligations.PrimegenDrawsUntilPrime : Prop :=
  ∀ words : List Word32, wantsWord .primegen words = true ↔ ∀ v ∈ words, ¬ Nat.Prime (v ||| 0x80000001#32).toNat

/-- R94: KEYGEN completes with the pair the pseudocode's procedure returns, and `n = p * q` exactly; while the procedure needs a word, it draws. -/
def Obligations.KeygenResult : Prop :=
  encode .keygen = 0x6#32 ∧ ∀ (s : State) (run : Run), s.seq = .running run →
    (∀ p q n, keygenPseudocode run.words = .done p q n →
      ∃ t, exec .keygen s = .next t ∧ Completed s t run p.toNat q.toNat (p.toNat * q.toNat) false false false) ∧
    (keygenPseudocode run.words = .need → exec .keygen s = .next (s.draw run) ∧ wantsWord .keygen run.words = true)

/-- R94: the command's position as a state machine over the words is the procedure of the pseudocode. -/
def Obligations.KeygenFollowsPseudocode : Prop :=
  ∀ words : List Word32, keygenProc words = keygenPseudocode words

/-- R95: every successful KEYGEN completion holds a valid key. -/
def Obligations.KeygenKeyValid : Prop :=
  ∀ (s t : State) (run : Run), s.seq = .running run → exec .keygen s = .next t → t.busy = false → t.status.err = false →
    Nat.Prime t.r0.toNat ∧ Nat.Prime t.r1.toNat ∧ 2 ^ 31 ≤ t.r0.toNat ∧ t.r0.toNat < 2 ^ 32 ∧ 2 ^ 31 ≤ t.r1.toNat ∧
      t.r1.toNat < 2 ^ 32 ∧ t.r0 ≠ t.r1 ∧ Nat.gcd 65537 ((t.r0.toNat - 1) * (t.r1.toNat - 1)) = 1 ∧
      t.r2.toNat = t.r0.toNat * t.r1.toNat ∧ 2 ^ 62 < t.r2.toNat ∧ t.r2.toNat < 2 ^ 64

/-- R97: ENCRYPT, with the order WIDTH then BAD_MODULUS, and OOR. -/
def Obligations.EncryptResult : Prop :=
  encode .encrypt = 0x7#32 ∧ ∀ (s : State) (run : Run), s.seq = .running run →
    ∃ t, exec .encrypt s = .next t ∧
      (2 ^ 32 ≤ run.op.a.toNat → Failed s t run 3#4) ∧
      (run.op.a.toNat < 2 ^ 32 → run.op.m.toNat = 0 → Failed s t run 2#4) ∧
      (run.op.a.toNat < 2 ^ 32 → run.op.m.toNat ≠ 0 →
        Completed s t run (run.op.a.toNat ^ 65537 % run.op.m.toNat) 0 0 false (decide (run.op.m.toNat ≤ run.op.a.toNat)) false)

/-- R98: DECRYPT, with the order WIDTH, BAD_KEY, NO_PRIVATE_EXP, the recovered value in R1, its low half in R0, and TRUNC. -/
def Obligations.DecryptResult : Prop :=
  encode .decrypt = 0x8#32 ∧ ∀ (s : State) (run : Run) (p q : Nat), s.seq = .running run → p = run.op.a.toNat → q = run.op.b.toNat →
    ∃ t, exec .decrypt s = .next t ∧
      (2 ^ 32 ≤ p ∨ 2 ^ 32 ≤ q → Failed s t run 3#4) ∧
      (p < 2 ^ 32 → q < 2 ^ 32 → (p < 2 ∨ q < 2 ∨ p = q) → Failed s t run 4#4) ∧
      (p < 2 ^ 32 → q < 2 ^ 32 → 2 ≤ p → 2 ≤ q → p ≠ q → Nat.gcd 65537 ((p - 1) * (q - 1)) ≠ 1 → Failed s t run 5#4) ∧
      (p < 2 ^ 32 → q < 2 ^ 32 → 2 ≤ p → 2 ≤ q → p ≠ q → Nat.gcd 65537 ((p - 1) * (q - 1)) = 1 →
        ∃ d y, 1 ≤ d ∧ d < (p - 1) * (q - 1) ∧ 65537 * d % ((p - 1) * (q - 1)) = 1 ∧ y = run.op.c.toNat ^ d % (p * q) ∧
          Completed s t run (y % 2 ^ 32) y 0 false false (decide (2 ^ 32 ≤ y)))

/-- R99: for every successful KEYGEN completion and every message of 32 bits, DECRYPT of ENCRYPT gives the message back. -/
def Obligations.RsaRoundTrip : Prop :=
  ∀ (sk tk : State) (runk : Run), sk.seq = .running runk → exec .keygen sk = .next tk → tk.busy = false → tk.status.err = false →
    ∀ (msg : Word) (se : State) (rune : Run), msg.toNat < 2 ^ 32 → se.seq = .running rune → rune.op.a = msg → rune.op.m = tk.r2 →
      ∃ te, exec .encrypt se = .next te ∧ te.busy = false ∧ te.status.done = true ∧ te.status.err = false ∧ te.status.oor = false ∧
        ∀ (sd : State) (rund : Run), sd.seq = .running rund → rund.op.a = tk.r0 → rund.op.b = tk.r1 → rund.op.c = te.r0 →
          ∃ td, exec .decrypt sd = .next td ∧ td.busy = false ∧ td.status.done = true ∧ td.status.err = false ∧
            td.r0 = msg ∧ td.r1 = msg ∧ td.status.trunc = false

/-! ### Entropy -/

/-- R88: `draw()` of PRIMEGEN and KEYGEN while the procedure needs a word: the cap, the internal generator, the delivered word; with no delivery the
step is not enabled. The model's own reading: that the delivered word is on the port within the step (log 5), and that a turn whose step is not enabled
leaves the state (log 3). -/
def Obligations.DrawStep : Prop :=
  ∀ (i : Instr) (s : State) (run : Run), s.seq = .running run → wantsWord i run.words = true →
    (run.op.limit.toNat ≠ 0 → run.words.length = run.op.limit.toNat → ∃ t, exec i s = .next t ∧ Failed s t run 6#4) ∧
    ((run.op.limit.toNat = 0 ∨ run.words.length ≠ run.op.limit.toNat) →
      (run.op.src = true → ∃ t, exec i s = .next t ∧ Drew s t run (splitmixNext s.seed).2 (splitmixNext s.seed).1) ∧
      (∀ w, run.op.src = false → run.port = some w → ∃ t, exec i s = .next t ∧ Drew s t run w s.seed) ∧
      (run.op.src = false → run.port = none → exec i s = .next s))

/-- R87: the internal generator, written over naturals, its first draw from SEED = 0, and that its state is SEED: a draw from it advances SEED and adds
its word. -/
def Obligations.InternalGenerator : Prop :=
  (∀ s : Word,
    let s' := (s.toNat + 0x9E3779B97F4A7C15) % 2 ^ 64
    let z1 := (s' ^^^ (s' >>> 30)) * 0xBF58476D1CE4E5B9 % 2 ^ 64
    let z2 := (z1 ^^^ (z1 >>> 27)) * 0x94D049BB133111EB % 2 ^ 64
    (splitmixNext s).1.toNat = s' ∧ (splitmixNext s).2.toNat = (z2 ^^^ (z2 >>> 31)) % 2 ^ 32) ∧
  splitmixNext 0#64 = (0x9E3779B97F4A7C15#64, 0x7B1DCDAF#32) ∧
  (∀ (s : State) (run : Run), run.op.src = true → (run.op.limit.toNat = 0 ∨ run.words.length ≠ run.op.limit.toNat) →
    (s.draw run).seed = (splitmixNext s.seed).1 ∧
    ∃ run', (s.draw run).seq = .running run' ∧ run'.op = run.op ∧ run'.words = run.words ++ [(splitmixNext s.seed).2])

/-- R90: a candidate is odd and in `[2^31, 2^32)`, keeps bits 30 to 1 of its word, and every such number is a candidate. -/
def Obligations.CandidateRange : Prop :=
  (∀ w : Word32, 2 ^ 31 ≤ (cand w).toNat ∧ (cand w).toNat < 2 ^ 32 ∧ (cand w).toNat % 2 = 1 ∧
    ∀ k, 1 ≤ k → k ≤ 30 → (cand w).getLsbD k = w.getLsbD k) ∧
  (∀ n : Nat, 2 ^ 31 ≤ n → n < 2 ^ 32 → n % 2 = 1 → ∃ w : Word32, (cand w).toNat = n)

/-- R72, R87: under the internal generator the words of a command are a function of SEED at its issue step: after `k` sequencer steps of a command
still running they are the first `k` words of the generator, and SEED has advanced `k` times. The steps are those of an empty inbox, where the sequencer
has every turn: the model's choice, log 2. -/
def Obligations.SeededWordsFollowSeed : Prop :=
  ∀ (s : State) (w : Word32), s.rst = false → s.busy = false → s.inbox = [] → s.ctrl.entSrc = true →
    ∀ (k : Nat) (t : State) (run : Run), core.run k (s.deliverCmd w) = .next t → t.seq = .running run →
      run.words = seedWords k s.seed ∧ t.seed = seedAfter k s.seed

/-- R122, R125: a command with a cap, under the internal generator, completes within as many sequencer steps as words are left to its cap, and one
more. The steps are those of an empty inbox, where the sequencer has every turn: the model's choice, log 2. -/
def Obligations.CappedSeededCommandCompletes : Prop :=
  ∀ (s : State) (run : Run), s.rst = false → s.inbox = [] → s.seq = .running run → run.op.src = true → run.op.limit ≠ 0#64 →
    run.words.length ≤ run.op.limit.toNat →
    ∃ k t, k ≤ run.op.limit.toNat - run.words.length + 1 ∧ core.run k s = .next t ∧ t.busy = false ∧ t.status.done = true

/-! ### The register window -/

/-- R39, R40, R42: an access of another width, or misaligned, has no effect, returns data 0 and is a fault of the host program. -/
def Obligations.BusErrorHasNoEffect : Prop :=
  ∀ (s : State) (off bytes : Nat), off < 0x100 → ¬ (bytes = 4 ∧ off % 4 = 0 ∨ bytes = 8 ∧ off % 8 = 0) →
    s.memRead off bytes = ⟨true, 0#64⟩ ∧ (∀ value, s.memWrite off bytes value = s) ∧
    ∀ (rest : List Turn) (access : BusAccess),
      (access = .read (Config.rsacoreBase + off) bytes ∨ ∃ value, access = .write (Config.rsacoreBase + off) bytes value) →
      s.inbox = .host access :: rest → step s = .fault .busError

/-- R43, R44: an access with an admitted width and alignment is one step that goes on: a read that answers MemRead on the model's data lines (log 11) and
leaves every register, a write that is MemWrite. -/
def Obligations.AdmittedAccessGoesOn : Prop :=
  ∀ (s : State) (off bytes : Nat) (rest : List Turn), off < 0x100 → (bytes = 4 ∧ off % 4 = 0 ∨ bytes = 8 ∧ off % 8 = 0) → s.rst = false →
    (s.inbox = .host (.read (Config.rsacoreBase + off) bytes) :: rest →
      step s = .next ({ s with inbox := rest }.afterRead off bytes) ∧
      (∀ t, step s = .next t → t = { s with inbox := rest, busData := (s.memRead off bytes).data, freeReads := t.freeReads }) ∧
      (s.memRead off bytes).error = false) ∧
    (∀ value, s.inbox = .host (.write (Config.rsacoreBase + off) bytes value) :: rest →
      step s = .next ({ s with inbox := rest }.memWrite off bytes value))

/-- R41: byte `k` of the data of an access at offset `o` is byte `o mod 8 + k` of the register there, least significant first; bytes beyond the
width are 0. -/
def Obligations.ReadIsLittleEndian : Prop :=
  ∀ (s : State) (off bytes k : Nat), (bytes = 4 ∧ off % 4 = 0 ∨ bytes = 8 ∧ off % 8 = 0) → k < 8 →
    (s.memRead off bytes).data.extractLsb' (8 * k) 8 =
      if k < bytes then (s.windowWord off).extractLsb' (8 * (off % 8 + k)) 8 else 0#8

/-- R16, R17, R24, R26, R43, R67: what each offset reads as, while a command runs and while none does; SEED only while none does (R22). A register by
its 8-byte read, and a 4-byte read as the half of it there; the bits of CTRL and STATUS are those of CtrlRegisterBits and StatusRegisterBits. -/
def Obligations.WindowReadsRegisters : Prop :=
  ∀ s : State,
    s.memRead 0x00 8 = ⟨false, 0x0000000152534143#64⟩ ∧ s.memRead 0x08 8 = ⟨false, 0#64⟩ ∧ s.memRead 0x10 8 = ⟨false, s.ctrlWord⟩ ∧
    s.memRead 0x18 8 = ⟨false, s.statusWord⟩ ∧ s.memRead 0x20 8 = ⟨false, s.retryLimit⟩ ∧
    (s.busy = false → s.memRead 0x28 8 = ⟨false, s.seed⟩) ∧ s.memRead 0x30 8 = ⟨false, s.a⟩ ∧ s.memRead 0x38 8 = ⟨false, s.b⟩ ∧
    s.memRead 0x40 8 = ⟨false, s.m⟩ ∧ s.memRead 0x48 8 = ⟨false, s.c⟩ ∧ s.memRead 0x50 8 = ⟨false, s.r0⟩ ∧
    s.memRead 0x58 8 = ⟨false, s.r1⟩ ∧ s.memRead 0x60 8 = ⟨false, s.r2⟩ ∧ s.memRead 0x68 8 = ⟨false, s.attempts⟩ ∧
    (∀ k, k < 32 → s.memRead (8 * k) 4 = ⟨false, ((s.memRead (8 * k) 8).data.extractLsb' 0 32).setWidth 64⟩ ∧
      s.memRead (8 * k + 4) 4 = ⟨false, ((s.memRead (8 * k) 8).data.extractLsb' 32 32).setWidth 64⟩) ∧
    ∀ off bytes, 0x70 ≤ off → off < 0x100 → (bytes = 4 ∧ off % 4 = 0 ∨ bytes = 8 ∧ off % 8 = 0) → s.memRead off bytes = ⟨false, 0#64⟩

/-- R20: STATUS bit by bit, and what a write to it clears. -/
def Obligations.StatusRegisterBits : Prop :=
  (∀ (s : State) (v : Word), v = (s.memRead 0x18 8).data →
    v.getLsbD 0 = s.busy ∧ v.getLsbD 1 = s.status.done ∧ v.getLsbD 2 = s.status.err ∧ v.getLsbD 3 = s.status.flag ∧
    v.getLsbD 4 = s.status.oor ∧ v.getLsbD 5 = s.status.trunc ∧ v.getLsbD 6 = s.status.cmdOvr ∧
    v.extractLsb' 8 4 = s.status.errcode.code ∧ v.extractLsb' 16 4 = s.status.lastop ∧
    ∀ k, (k = 7 ∨ (12 ≤ k ∧ k ≤ 15) ∨ 20 ≤ k) → v.getLsbD k = false) ∧
  (∀ (s : State) (bytes : Nat) (value : Word), (bytes = 4 ∨ bytes = 8) →
    s.memWrite 0x18 bytes value = { s with status := { s.status with
      done := if value.getLsbD 1 then false else s.status.done
      cmdOvr := if value.getLsbD 6 then false else s.status.cmdOvr } } ∧
    s.memWrite 0x1C 4 value = s)

/-- R19: CTRL as read, and that a write that presents bits [31:0] without ABORT and SRST writes ENT_SRC and IRQ_EN alone. -/
def Obligations.CtrlRegisterBits : Prop :=
  (∀ (s : State) (v : Word), v = (s.memRead 0x10 8).data →
    v.getLsbD 8 = s.ctrl.entSrc ∧ v.getLsbD 9 = s.ctrl.irqEn ∧ ∀ k, k ≠ 8 → k ≠ 9 → v.getLsbD k = false) ∧
  (∀ (s : State) (bytes : Nat) (value : Word), (bytes = 4 ∨ bytes = 8) → value.getLsbD 0 = false → value.getLsbD 1 = false →
    s.memWrite 0x10 bytes value = { s with ctrl := ⟨value.getLsbD 8, value.getLsbD 9⟩ }) ∧
  (∀ (s : State) (value : Word), s.memWrite 0x14 4 value = s)

/-- R44: a write to RETRY_LIMIT, A, B, M or C, or to SEED while BUSY = 0, replaces the presented bits, leaves the others, and changes nothing else. That a
4-byte write to SEED does so too is the model's reading, log 22. -/
def Obligations.OperandWriteReplacesPresentedBits : Prop :=
  ∀ (s : State) (bytes half : Nat) (value : Word), (bytes = 8 ∧ half = 0 ∨ bytes = 4 ∧ half = 0 ∨ bytes = 4 ∧ half = 4) →
    ∃ upd : Word → Word,
      (∀ old k, k < 64 → (upd old).getLsbD k =
        if 8 * half ≤ k ∧ k < 8 * (half + bytes) then value.getLsbD (k - 8 * half) else old.getLsbD k) ∧
      s.memWrite (0x20 + half) bytes value = { s with retryLimit := upd s.retryLimit } ∧
      s.memWrite (0x30 + half) bytes value = { s with a := upd s.a } ∧
      s.memWrite (0x38 + half) bytes value = { s with b := upd s.b } ∧
      s.memWrite (0x40 + half) bytes value = { s with m := upd s.m } ∧
      s.memWrite (0x48 + half) bytes value = { s with c := upd s.c } ∧
      (s.busy = false → s.memWrite (0x28 + half) bytes value = { s with seed := upd s.seed })

/-- R22, R121: a SEED write while a command runs is ignored; a SEED read then changes no register. -/
def Obligations.SeedWhileBusy : Prop :=
  ∀ (s : State) (off bytes : Nat) (value : Word), s.busy = true → (off = 0x28 ∨ off = 0x2C) →
    s.memWrite off bytes value = s ∧
    s.afterRead off bytes = { s with busData := (s.afterRead off bytes).busData, freeReads := s.freeReads + 1 }

/-- R44, R26: writes to ID, R0, R1, R2, ATTEMPTS and the reserved offsets are ignored. -/
def Obligations.ReadOnlyWritesIgnored : Prop :=
  ∀ (s : State) (off bytes : Nat) (value : Word), (off < 0x08 ∨ (0x50 ≤ off ∧ off < 0x100)) → s.memWrite off bytes value = s

/-- R43: a read changes no state of RSACORE, and two reads with no step between them return the same value (but SEED while BUSY). -/
def Obligations.ReadHasNoSideEffect : Prop :=
  ∀ (s : State) (off bytes : Nat),
    s.afterRead off bytes = { s with busData := (s.afterRead off bytes).busData, freeReads := (s.afterRead off bytes).freeReads } ∧
    ∀ off' bytes', (s.busy = false ∨ off' < 0x28 ∨ 0x30 ≤ off') → (s.afterRead off bytes).memRead off' bytes' = s.memRead off' bytes'

/-! ### Abort, reset, interrupt -/

/-- R75: ABORT ends a running command with ABORTED and has no effect on an IDLE sequencer (ENT_SRC and IRQ_EN are written by the same write, R19). -/
def Obligations.AbortEndsRunningCommand : Prop :=
  ∀ (s : State) (bytes : Nat) (value : Word), (bytes = 4 ∨ bytes = 8) → value.getLsbD 0 = true → value.getLsbD 1 = false →
    (∀ run, s.seq = .running run →
      Failed { s with ctrl := ⟨value.getLsbD 8, value.getLsbD 9⟩ } (s.memWrite 0x10 bytes value) run 7#4) ∧
    (s.seq = .idle → s.memWrite 0x10 bytes value = { s with ctrl := ⟨value.getLsbD 8, value.getLsbD 9⟩ })

/-- R115, R45: SRST resets everything, and then ENT_SRC and IRQ_EN take the written bits; ABORT in the same write has no further effect. -/
def Obligations.SoftResetRestoresReset : Prop :=
  ∀ (s : State) (bytes : Nat) (value : Word), (bytes = 4 ∨ bytes = 8) → value.getLsbD 1 = true →
    (s.memWrite 0x10 bytes value).ctrl = ⟨value.getLsbD 8, value.getLsbD 9⟩ ∧
    AtReset { s.memWrite 0x10 bytes value with ctrl := ⟨false, false⟩ }

/-- R114, R16: the state right after reset. -/
def Obligations.ResetValues : Prop :=
  AtReset State.reset ∧ State.reset.memRead 0x00 8 = ⟨false, 0x0000000152534143#64⟩ ∧ State.reset.rst = false

/-- R114: while `rst` is asserted, in the step that asserts it and in the step that releases it, every register takes its reset value, whichever
agent moves. The reset input always moves: its turn answers a next state with `rst` at the level it sets, and no other turn moves `rst`
(the model's form of the input, log 6). -/
def Obligations.ResetInputHoldsReset : Prop :=
  (∀ s t : State, step s = .next t → (s.rst = true ∨ ∃ rest, s.inbox = .reset true :: rest) → AtReset t) ∧
  (∀ (s : State) (asserted : Bool) (rest : List Turn), s.inbox = .reset asserted :: rest → ∃ t, step s = .next t ∧ t.rst = asserted) ∧
  (∀ s t : State, step s = .next t → (∀ asserted rest, s.inbox ≠ .reset asserted :: rest) → t.rst = s.rst)

/-- R106: the interrupt output is the level IRQ_EN & DONE, with IRQ_EN effective at once; every completion, ABORTED ones too, raises it when enabled;
an acknowledgement, an issue, a soft reset and a hardware reset lower it. -/
def Obligations.InterruptLevel : Prop :=
  (∀ s : State, s.irq = ((s.memRead 0x10 8).data.getLsbD 9 && (s.memRead 0x18 8).data.getLsbD 1)) ∧
  (∀ (s : State) (bytes : Nat) (value : Word), (bytes = 4 ∨ bytes = 8) → value.getLsbD 1 = true →
    (s.memWrite 0x18 bytes value).irq = false) ∧
  (∀ (s : State) (w : Word32), s.busy = false → (s.deliverCmd w).irq = false) ∧
  (∀ (s t : State) (i : Instr), s.busy = true → exec i s = .next t → t.busy = false → t.irq = s.ctrl.irqEn) ∧
  (∀ (s : State) (bytes : Nat) (value : Word), (bytes = 4 ∨ bytes = 8) →
    (value.getLsbD 1 = true → (s.memWrite 0x10 bytes value).irq = false) ∧
    (value.getLsbD 1 = false → value.getLsbD 0 = true → s.busy = true → (s.memWrite 0x10 bytes value).irq = value.getLsbD 9) ∧
    (value.getLsbD 1 = false → (value.getLsbD 0 = false ∨ s.busy = false) → (s.memWrite 0x10 bytes value).irq = (value.getLsbD 9 && s.status.done))) ∧
  (∀ s : State, s.hardReset.irq = false)

/-! ### The whole machine -/

/-- R24: only a completion writes R0, R1, R2 and, with R25, ATTEMPTS; the one other way they change is a reset, which leaves them 0. -/
def Obligations.ResultsChangeOnlyAtCompletion : Prop :=
  ∀ s t : State, step s = .next t →
    (t.r0 = s.r0 ∧ t.r1 = s.r1 ∧ t.r2 = s.r2 ∧ t.attempts = s.attempts) ∨
    (s.busy = true ∧ t.busy = false ∧ t.status.done = true) ∨
    (t.r0 = 0#64 ∧ t.r1 = 0#64 ∧ t.r2 = 0#64 ∧ t.attempts = 0#64 ∧ t.seq = .idle ∧ t.statusWord = 0#64)

/-- R23, R24: no command writes an operand register: a turn of the sequencer or of the entropy source leaves A, B, M, C, RETRY_LIMIT and CTRL. -/
def Obligations.CommandsWriteNoOperandRegister : Prop :=
  ∀ s t : State, step s = .next t → s.rst = false →
    (s.inbox = [] ∨ (∃ rest, s.inbox = .sequencer :: rest) ∨ ∃ w rest, s.inbox = .entropy w :: rest) →
    t.a = s.a ∧ t.b = s.b ∧ t.m = s.m ∧ t.c = s.c ∧ t.retryLimit = s.retryLimit ∧ t.ctrl = s.ctrl

/-- R28: CMD_OVR is set only by a command word that comes while BUSY = 1, and cleared only by a write of 1 to it or by reset. -/
def Obligations.OverrunFlagOnlyFromDroppedWord : Prop :=
  ∀ s t : State, step s = .next t →
    (s.status.cmdOvr = false → t.status.cmdOvr = true → s.busy = true ∧ ∃ addr bytes value rest,
      s.inbox = .host (.write addr bytes value) :: rest ∧ windowOffset addr = some 0x08) ∧
    (s.status.cmdOvr = true → t.status.cmdOvr = false → t.statusWord = 0#64 ∨ ∃ addr bytes value rest,
      s.inbox = .host (.write addr bytes value) :: rest ∧ windowOffset addr = some 0x18 ∧ value.getLsbD 6 = true)

/-- R115: a command that runs ends by a completion, or by a reset, and by nothing else. -/
def Obligations.CommandEndsByCompletionOrReset : Prop :=
  ∀ s t : State, step s = .next t → s.busy = true → t.busy = false →
    t.status.done = true ∨ (t.statusWord = 0#64 ∧ t.r0 = 0#64 ∧ t.r1 = 0#64 ∧ t.r2 = 0#64 ∧ t.attempts = 0#64)

/-- R67, R117: no host access changes the snapshot, the words or the progress of a running command: it leaves the sequencer as it is, or ends the
command by ABORT or SRST. -/
def Obligations.HostCannotTouchRunningCommand : Prop :=
  ∀ (s t : State) (access : BusAccess), s.busy = true → s.hostAccess access = .next t →
    t.seq = s.seq ∨ (t.seq = .idle ∧ ∃ addr bytes value, access = .write addr bytes value ∧ windowOffset addr = some 0x10 ∧
      (value.getLsbD 0 = true ∨ value.getLsbD 1 = true))

/-- R72: the outcome of a command is a function of its snapshot and its words: from two states that agree on these (and, for a NOP, which keeps them,
on R0, R1, R2 and ATTEMPTS), the same step completes both, with the same results, flags and error. -/
def Obligations.OutcomeDependsOnSnapshotAndWords : Prop :=
  ∀ (i : Instr) (s1 s2 t1 t2 : State) (run : Run),
    (i = .nop → s1.r0 = s2.r0 ∧ s1.r1 = s2.r1 ∧ s1.r2 = s2.r2 ∧ s1.attempts = s2.attempts) → s1.seq = .running run → s2.seq = .running run →
    exec i s1 = .next t1 → exec i s2 = .next t2 →
    t1.busy = t2.busy ∧ (t1.busy = false →
      t1.r0 = t2.r0 ∧ t1.r1 = t2.r1 ∧ t1.r2 = t2.r2 ∧ t1.attempts = t2.attempts ∧ t1.status.flag = t2.status.flag ∧
      t1.status.oor = t2.status.oor ∧ t1.status.trunc = t2.status.trunc ∧ t1.status.err = t2.status.err ∧
      t1.status.errcode = t2.status.errcode)

/-- The invariant holds at reset. -/
def Obligations.InvariantAtReset : Prop := Inv State.reset

/-- Every step keeps the invariant (R20, R28, R34, R70, R71, R88, R89, R100, R114). -/
def Obligations.StepKeepsInvariant : Prop :=
  ∀ s t : State, Inv s → step s = .next t → Inv t

/-! ### Reference algorithms and the host notation -/

/-- R80: the bit-at-a-time product agrees with MODMUL's exact one for every modulus `m >= 1`. -/
def Obligations.SerialProductAgrees : Prop :=
  ∀ a b m : Nat, a < 2 ^ 64 → b < 2 ^ 64 → m < 2 ^ 64 → 1 ≤ m → serialMul a b m = a * b % m

/-- R92: the Miller-Rabin reference has no false negative: it accepts every prime of 32 bits. -/
def Obligations.MillerRabinAcceptsEveryPrime : Prop :=
  ∀ n : Nat, n < 2 ^ 32 → n.Prime → millerRabin n = true

/-- R63, R61: the pseudo-statement CMD issues its command, when RSACORE is idle. -/
def Obligations.NotationCmdIssuesCommand : Prop :=
  ∀ (i : Instr) (s : State), i.wellFormed = true → s.rst = false → s.busy = false →
    ∃ h' t run, HostProgram.turn ⟨(PseudoStmt.cmd i).expand, 0, [], false, false⟩ s = .next (h', t) ∧
      t.seq = .running run ∧ run.op.op = i ∧ run.words = []

/-- R64: a statement's line stands for the access the statement makes: both have the same effect on RSACORE. -/
def Obligations.LineStandsForAccess : Prop :=
  ∀ (h : HostProgram) (s : State),
    (h.nextLine = none ↔ h.nextAccess = none) ∧
    ∀ line access, h.nextLine = some line → h.nextAccess = some access → s.hostAccess line.access = s.hostAccess access

/-! ### Every schedule -/

/-- R72, R87: whatever the turn, a step keeps the words of a running command on the generator started at SEED's value at its issue, and SEED with them;
and the step that issues a command starts it so. -/
def Obligations.StepKeepsSeedFollowing : Prop :=
  (∀ (s t : State) (seed : Word), SeedFollows seed s → s.busy = true → step s = .next t → SeedFollows seed t) ∧
  (∀ s t : State, s.busy = false → step s = .next t → SeedFollows s.seed t)

/-- R48, R125: a run under a schedule is, for any number of steps, the run of the machine whose inbox holds the schedule's first turns. Inbox
and schedule are the model's own form (logs 2 and 20). -/
def Obligations.ScheduledRunIsInboxRun : Prop :=
  ∀ (sched : Schedule) (s : State) (n : Nat), s.inbox = [] →
    sched.run s n = core.run n { s with inbox := sched.turns n }

/-- R125: under weak fairness of the sequencer, and `entropy_fair` where the words come from the port, a command that draws nothing and a command with a
cap end: after some step of the run the command is still there, and the next step is its completion, or a reset. Schedules
and the two predicates of fairness are the model's own form (log 20), and no fault or refusal stops the run. -/
def Obligations.FairCommandEnds : Prop :=
  ∀ (sched : Schedule) (s : State) (run : Run), Inv s → s.seq = .running run → sched.GoesOn s → sched.WeaklyFair s →
    (run.op.op ≠ .primegen ∧ run.op.op ≠ .keygen ∨ run.op.limit ≠ 0#64 ∧ (run.op.src = true ∨ sched.EntropyFair s)) →
    ∃ n t run' t', sched.run s n = .next t ∧ t.seq = .running run' ∧ run'.op = run.op ∧
      sched.run s (n + 1) = .next t' ∧ t'.busy = false ∧ (t'.status.done = true ∨ t'.statusWord = 0#64)

/-! ### Runs of host programs -/

/-- R64: the lines of a run are the accesses the program performs: RSACORE alone, given these accesses in this order among the other agents' turns in
theirs, ends in the same state. The inbox is the model's own field (log 2), the list of moves its form of a run (log 21). -/
def Obligations.EncodingReplaysRun : Prop :=
  ∀ (moves : List RunMove) (h h' : HostProgram) (s t : State), (h.run s moves).outcome = .next (h', t) →
    ∃ turns : List Turn, turns.filterMap Turn.hostAccess = (h.run s moves).lines.map BusLine.access ∧
      turns.filterMap Turn.otherAgent = moves.filterMap RunMove.agentTurn ∧
      core.run turns.length { s with inbox := turns } = .next { t with inbox := [] }

/-- R64, R63: a run that goes on adds the lines of what it goes on with; and `k` iterations of WAIT while BUSY = 1 give its one line `k` times, and the
iteration that sees BUSY = 0 gives it once more and leaves the loop with STATUS in `$s`. The list of moves is the model's form of a
run (log 21). -/
def Obligations.LoopGivesLinesPerIteration : Prop :=
  (∀ (h : HostProgram) (s : State) (moves more : List RunMove), (h.run s (moves ++ more)).lines = (h.run s moves).lines ++
    match (h.run s moves).outcome with
    | .next (h', t) => (h'.run t more).lines
    | .fault _ => []
    | .refused _ => []) ∧
  (∀ (k : Nat) (h : HostProgram) (s : State) (fresh : String), h.stmts = (PseudoStmt.wait fresh).expand → h.pc = 0 → h.halted = false →
    s.rst = false → s.busy = true →
    ∃ h' t, (h.run s (List.replicate (3 * k) .statement)).outcome = .next (h', t) ∧
      (h.run s (List.replicate (3 * k) .statement)).lines = List.replicate k (.r8 0x18) ∧
      h'.stmts = h.stmts ∧ h'.pc = 0 ∧ h'.halted = false ∧ t.seq = s.seq ∧ t.rst = false) ∧
  (∀ (h : HostProgram) (s : State) (fresh : String), h.stmts = (PseudoStmt.wait fresh).expand → h.pc = 0 → h.halted = false →
    s.rst = false → s.busy = false →
    ∃ h' t, (h.run s (List.replicate 3 .statement)).outcome = .next (h', t) ∧ (h.run s (List.replicate 3 .statement)).lines = [.r8 0x18] ∧
      h'.pc = 3 ∧ h'.halted = false ∧ h'.value "s" = s.statusWord)
end

