-- ==== Sys2Proof/Laws/Arith.lean ====
section
/-! SUPPORT. The evaluable arithmetic of Machine/Arith.lean computes the exact values of the rules (R9, R11, R76). -/

namespace Sys2Proof.Machine

/-- The loop's result, reduced, is `r * b ^ e` reduced, when `k` bits are enough for `e`. -/
theorem modExpLoop_mod (m : Nat) : ∀ (k r b e : Nat), e < 2 ^ k → modExpLoop m k r b e % m = r * b ^ e % m := by
  intro k
  induction k with
  | zero =>
    intro r b e he
    have : e = 0 := by omega
    simp [modExpLoop, this]
  | succ k ih =>
    intro r b e he
    have hk : e / 2 < 2 ^ k := by rw [pow_succ] at he; omega
    rw [modExpLoop, ih _ _ _ hk, Nat.mul_mod, Nat.pow_mod, Nat.mod_mod, ← Nat.pow_mod, ← pow_two, ← pow_mul]
    by_cases odd : e % 2 = 1
    · have he' : e = 2 * (e / 2) + 1 := by omega
      rw [if_pos odd, Nat.mod_mod, ← Nat.mul_mod]
      conv_rhs => rw [he', pow_succ, ← mul_assoc]
      rw [mul_assoc, mul_comm b, ← mul_assoc]
    · have he' : e = 2 * (e / 2) := by omega
      rw [if_neg odd, ← Nat.mul_mod]
      conv_rhs => rw [he']

theorem modExpLoop_reduced (m : Nat) : ∀ (k r b e : Nat), r % m = r → modExpLoop m k r b e % m = modExpLoop m k r b e := by
  intro k
  induction k with
  | zero => intro r b e hr; exact hr
  | succ k ih =>
    intro r b e hr
    refine ih _ _ _ ?_
    split
    · exact Nat.mod_mod _ _
    · exact hr

/-- R81: `modExp` is `base ^ exponent mod modulus`, for every 64-bit exponent. -/
theorem modExp_eq (a e m : Nat) (he : e < 2 ^ 64) : modExp a e m = a ^ e % m := by
  unfold modExp
  rw [← modExpLoop_reduced m 64 (1 % m) (a % m) e (Nat.mod_mod _ _), modExpLoop_mod m 64 _ _ _ he,
    Nat.mul_mod, Nat.mod_mod, ← Nat.pow_mod, ← Nat.mul_mod, one_mul]

/-- Euclid's loop ends at the gcd, with a coefficient of `a` that gives it modulo `m`. -/
theorem euclidLoop_spec (a m : Nat) : ∀ (k r0 r1 : Nat) (s0 s1 : Int), r1 < k →
    (r0 : Int) ≡ a * s0 [ZMOD m] → (r1 : Int) ≡ a * s1 [ZMOD m] →
    (euclidLoop k r0 r1 s0 s1).1 = Nat.gcd r0 r1 ∧ (Nat.gcd r0 r1 : Int) ≡ a * (euclidLoop k r0 r1 s0 s1).2 [ZMOD m] := by
  intro k
  induction k with
  | zero => intro r0 r1 s0 s1 h; omega
  | succ k ih =>
    intro r0 r1 s0 s1 h h0 h1
    unfold euclidLoop
    split
    · rename_i hz
      subst hz
      simpa using h0
    · rename_i hz
      have hlt : r0 % r1 < k := lt_of_lt_of_le (Nat.mod_lt _ (Nat.pos_of_ne_zero hz)) (by omega)
      have hmod : ((r0 % r1 : Nat) : Int) ≡ a * (s0 - (r0 / r1 : Nat) * s1) [ZMOD m] := by
        have : ((r0 % r1 : Nat) : Int) = r0 - (r0 / r1 : Nat) * r1 := by
          have := Nat.mod_add_div r0 r1
          have hc : ((r0 % r1 : Nat) : Int) + r1 * (r0 / r1 : Nat) = r0 := by exact_mod_cast this
          linarith
        rw [this, mul_sub, mul_left_comm]
        exact h0.sub (h1.mul_left _)
      have := ih r1 (r0 % r1) s1 (s0 - (r0 / r1 : Nat) * s1) hlt h1 hmod
      rwa [Nat.gcd_comm r1, ← Nat.gcd_rec r1 r0, Nat.gcd_comm r1 r0] at this

/-- R83: for `gcd a m = 1` and `m >= 1`, `modInverse a m` lies below `m` and is the inverse of `a` modulo `m`. -/
theorem modInverse_spec (a m : Nat) (hm : 0 < m) (hg : Nat.gcd a m = 1) :
    modInverse a m < m ∧ a * modInverse a m % m = 1 % m := by
  have hmz : (m : Int) ≠ 0 := by exact_mod_cast hm.ne'
  have h := (euclidLoop_spec a m (m + 1) (a % m) m 1 0 (by omega)
    (by simp [Int.ModEq]) (by simp [Int.ModEq])).2
  have hg' : Nat.gcd (a % m) m = 1 := by rw [← hg, Nat.gcd_comm a m, Nat.gcd_rec m a]
  rw [hg'] at h
  have hnn := Int.emod_nonneg (euclidLoop (m + 1) (a % m) m 1 0).2 hmz
  have hcast : (modInverse a m : Int) = (euclidLoop (m + 1) (a % m) m 1 0).2 % (m : Int) := by
    rw [modInverse, Int.toNat_of_nonneg hnn]
  constructor
  · have : (modInverse a m : Int) < m := by rw [hcast]; exact Int.emod_lt_of_pos _ (by exact_mod_cast hm)
    exact_mod_cast this
  · have : ((a * modInverse a m : Nat) : Int) ≡ ((1 : Nat) : Int) [ZMOD m] := by
      push_cast
      rw [hcast]
      exact ((Int.mod_modEq _ _).mul_left _).trans h.symm
    exact (Int.natCast_modEq_iff.1 this)

theorem natMod_eq (a b : Nat) : Nat.mod a b = a % b := rfl

/-- What the search over odd numbers says. -/
theorem noOddDivisor_iff (n : Nat) : ∀ (k lo : Nat),
    noOddDivisor n k lo = true ↔ ∀ j, j < 2 ^ k → lo + 2 * j < n → n % (lo + 2 * j) ≠ 0 := by
  intro k
  induction k with
  | zero =>
    intro lo
    simp only [noOddDivisor, Bool.or_eq_true, Nat.blt_eq, Nat.ble_eq, natMod_eq, pow_zero, Nat.lt_one_iff, forall_eq]
    simp only [mul_zero, add_zero]
    omega
  | succ k ih =>
    intro lo
    simp only [noOddDivisor, Bool.and_eq_true, ih, Nat.add_eq, Nat.pow_eq]
    constructor
    · rintro ⟨h1, h2⟩ j hj hlt
      by_cases hjk : j < 2 ^ k
      · exact h1 j hjk hlt
      · have h : lo + 2 ^ (k + 1) + 2 * (j - 2 ^ k) = lo + 2 * j := by rw [pow_succ]; omega
        have := h2 (j - 2 ^ k) (by rw [pow_succ] at hj; omega)
        rw [h] at this
        exact this hlt
    · intro h
      refine ⟨fun j hj => h j (by rw [pow_succ]; omega), fun j hj hlt => ?_⟩
      have e : lo + 2 ^ (k + 1) + 2 * j = lo + 2 * (2 ^ k + j) := by rw [pow_succ]; ring
      rw [e] at hlt ⊢
      exact h _ (by rw [pow_succ]; omega) hlt

/-- R11: `isPrime` is primality. -/
theorem isPrime_iff (n : Nat) : isPrime n = true ↔ n.Prime := by
  simp only [isPrime, Bool.or_eq_true, Bool.and_eq_true, Nat.beq_eq, Nat.ble_eq, noOddDivisor_iff, natMod_eq]
  constructor
  · rintro (rfl | ⟨⟨h3, hodd⟩, hd⟩)
    · exact Nat.prime_two
    · by_contra hp
      have hpf := Nat.minFac_prime (n := n) (by omega)
      have hdvd := Nat.minFac_dvd n
      have hsq := Nat.minFac_sq_le_self (n := n) (by omega) hp
      have hp2 := hpf.two_le
      have hpo : n.minFac % 2 = 1 := by
        rcases Nat.mod_two_eq_zero_or_one n.minFac with h | h
        · have : 2 ∣ n := (Nat.dvd_of_mod_eq_zero h).trans hdvd
          omega
        · exact h
      have hlog : n < 2 ^ (Nat.log2 n + 1) := Nat.lt_log2_self
      have hlt : n.minFac < 2 ^ (Nat.log2 n / 2 + 1) := by
        by_contra hge
        have h1 : (2 ^ (Nat.log2 n / 2 + 1)) ^ 2 ≤ n.minFac ^ 2 := Nat.pow_le_pow_left (by omega) 2
        have h2 : 2 ^ (Nat.log2 n + 1) ≤ (2 ^ (Nat.log2 n / 2 + 1)) ^ 2 := by
          rw [← pow_mul]; exact Nat.pow_le_pow_right (by omega) (by omega)
        omega
      have hpn : n.minFac < n := by nlinarith
      have e : 3 + 2 * ((n.minFac - 3) / 2) = n.minFac := by omega
      have hj : (n.minFac - 3) / 2 < 2 ^ (Nat.log2 n / 2) := by rw [pow_succ] at hlt; omega
      have := hd _ hj
      rw [e] at this
      exact this hpn (Nat.mod_eq_zero_of_dvd hdvd)
  · intro hp
    have h2 := hp.two_le
    by_cases h : n = 2
    · exact .inl h
    · refine .inr ⟨⟨by omega, (hp.eq_two_or_odd).resolve_left h⟩, fun j _ hlt hz => ?_⟩
      rcases (Nat.dvd_prime hp).1 (Nat.dvd_of_mod_eq_zero hz) with h1 | h1 <;> omega

end Sys2Proof.Machine
end

