-- ==== Sys2Proof/Laws/State.lean ====
section
/-! SUPPORT. Each operation on State, field by field, true by unfolding (one lemma per field per update). -/

namespace Sys2Proof.Machine

open Sys2Proof

@[simp] theorem State.complete_ctrl (s : State) (run : Run) (x y z : Word) (f : Flags) : (s.complete run x y z f).ctrl = s.ctrl := rfl
@[simp] theorem State.complete_status (s : State) (run : Run) (x y z : Word) (f : Flags) : (s.complete run x y z f).status = s.status.succeeded f := rfl
@[simp] theorem State.complete_retryLimit (s : State) (run : Run) (x y z : Word) (f : Flags) : (s.complete run x y z f).retryLimit = s.retryLimit := rfl
@[simp] theorem State.complete_seed (s : State) (run : Run) (x y z : Word) (f : Flags) : (s.complete run x y z f).seed = s.seed := rfl
@[simp] theorem State.complete_a (s : State) (run : Run) (x y z : Word) (f : Flags) : (s.complete run x y z f).a = s.a := rfl
@[simp] theorem State.complete_b (s : State) (run : Run) (x y z : Word) (f : Flags) : (s.complete run x y z f).b = s.b := rfl
@[simp] theorem State.complete_m (s : State) (run : Run) (x y z : Word) (f : Flags) : (s.complete run x y z f).m = s.m := rfl
@[simp] theorem State.complete_c (s : State) (run : Run) (x y z : Word) (f : Flags) : (s.complete run x y z f).c = s.c := rfl
@[simp] theorem State.complete_r0 (s : State) (run : Run) (x y z : Word) (f : Flags) : (s.complete run x y z f).r0 = x := rfl
@[simp] theorem State.complete_r1 (s : State) (run : Run) (x y z : Word) (f : Flags) : (s.complete run x y z f).r1 = y := rfl
@[simp] theorem State.complete_r2 (s : State) (run : Run) (x y z : Word) (f : Flags) : (s.complete run x y z f).r2 = z := rfl
@[simp] theorem State.complete_attempts (s : State) (run : Run) (x y z : Word) (f : Flags) : (s.complete run x y z f).attempts = attemptsOf run.words.length := rfl
@[simp] theorem State.complete_seq (s : State) (run : Run) (x y z : Word) (f : Flags) : (s.complete run x y z f).seq = .idle := rfl
@[simp] theorem State.complete_rst (s : State) (run : Run) (x y z : Word) (f : Flags) : (s.complete run x y z f).rst = s.rst := rfl
@[simp] theorem State.complete_inbox (s : State) (run : Run) (x y z : Word) (f : Flags) : (s.complete run x y z f).inbox = s.inbox := rfl
@[simp] theorem State.complete_busData (s : State) (run : Run) (x y z : Word) (f : Flags) : (s.complete run x y z f).busData = s.busData := rfl
@[simp] theorem State.complete_freeReads (s : State) (run : Run) (x y z : Word) (f : Flags) : (s.complete run x y z f).freeReads = s.freeReads := rfl

@[simp] theorem State.raise_ctrl (s : State) (run : Run) (code : ErrCode) : (s.raise run code).ctrl = s.ctrl := rfl
@[simp] theorem State.raise_status (s : State) (run : Run) (code : ErrCode) : (s.raise run code).status = s.status.failed code := rfl
@[simp] theorem State.raise_retryLimit (s : State) (run : Run) (code : ErrCode) : (s.raise run code).retryLimit = s.retryLimit := rfl
@[simp] theorem State.raise_seed (s : State) (run : Run) (code : ErrCode) : (s.raise run code).seed = s.seed := rfl
@[simp] theorem State.raise_a (s : State) (run : Run) (code : ErrCode) : (s.raise run code).a = s.a := rfl
@[simp] theorem State.raise_b (s : State) (run : Run) (code : ErrCode) : (s.raise run code).b = s.b := rfl
@[simp] theorem State.raise_m (s : State) (run : Run) (code : ErrCode) : (s.raise run code).m = s.m := rfl
@[simp] theorem State.raise_c (s : State) (run : Run) (code : ErrCode) : (s.raise run code).c = s.c := rfl
@[simp] theorem State.raise_r0 (s : State) (run : Run) (code : ErrCode) : (s.raise run code).r0 = 0#64 := rfl
@[simp] theorem State.raise_r1 (s : State) (run : Run) (code : ErrCode) : (s.raise run code).r1 = 0#64 := rfl
@[simp] theorem State.raise_r2 (s : State) (run : Run) (code : ErrCode) : (s.raise run code).r2 = 0#64 := rfl
@[simp] theorem State.raise_attempts (s : State) (run : Run) (code : ErrCode) : (s.raise run code).attempts = attemptsOf run.words.length := rfl
@[simp] theorem State.raise_seq (s : State) (run : Run) (code : ErrCode) : (s.raise run code).seq = .idle := rfl
@[simp] theorem State.raise_rst (s : State) (run : Run) (code : ErrCode) : (s.raise run code).rst = s.rst := rfl
@[simp] theorem State.raise_inbox (s : State) (run : Run) (code : ErrCode) : (s.raise run code).inbox = s.inbox := rfl
@[simp] theorem State.raise_busData (s : State) (run : Run) (code : ErrCode) : (s.raise run code).busData = s.busData := rfl
@[simp] theorem State.raise_freeReads (s : State) (run : Run) (code : ErrCode) : (s.raise run code).freeReads = s.freeReads := rfl

@[simp] theorem State.completeNop_ctrl (s : State) : (s.completeNop).ctrl = s.ctrl := rfl
@[simp] theorem State.completeNop_status (s : State) : (s.completeNop).status = s.status.succeeded ⟨false, false, false⟩ := rfl
@[simp] theorem State.completeNop_retryLimit (s : State) : (s.completeNop).retryLimit = s.retryLimit := rfl
@[simp] theorem State.completeNop_seed (s : State) : (s.completeNop).seed = s.seed := rfl
@[simp] theorem State.completeNop_a (s : State) : (s.completeNop).a = s.a := rfl
@[simp] theorem State.completeNop_b (s : State) : (s.completeNop).b = s.b := rfl
@[simp] theorem State.completeNop_m (s : State) : (s.completeNop).m = s.m := rfl
@[simp] theorem State.completeNop_c (s : State) : (s.completeNop).c = s.c := rfl
@[simp] theorem State.completeNop_r0 (s : State) : (s.completeNop).r0 = s.r0 := rfl
@[simp] theorem State.completeNop_r1 (s : State) : (s.completeNop).r1 = s.r1 := rfl
@[simp] theorem State.completeNop_r2 (s : State) : (s.completeNop).r2 = s.r2 := rfl
@[simp] theorem State.completeNop_attempts (s : State) : (s.completeNop).attempts = s.attempts := rfl
@[simp] theorem State.completeNop_seq (s : State) : (s.completeNop).seq = .idle := rfl
@[simp] theorem State.completeNop_rst (s : State) : (s.completeNop).rst = s.rst := rfl
@[simp] theorem State.completeNop_inbox (s : State) : (s.completeNop).inbox = s.inbox := rfl
@[simp] theorem State.completeNop_busData (s : State) : (s.completeNop).busData = s.busData := rfl
@[simp] theorem State.completeNop_freeReads (s : State) : (s.completeNop).freeReads = s.freeReads := rfl

@[simp] theorem State.acknowledge_ctrl (s : State) (v : Word) : (s.acknowledge v).ctrl = s.ctrl := rfl
@[simp] theorem State.acknowledge_status (s : State) (v : Word) : (s.acknowledge v).status = s.status.acknowledged v := rfl
@[simp] theorem State.acknowledge_retryLimit (s : State) (v : Word) : (s.acknowledge v).retryLimit = s.retryLimit := rfl
@[simp] theorem State.acknowledge_seed (s : State) (v : Word) : (s.acknowledge v).seed = s.seed := rfl
@[simp] theorem State.acknowledge_a (s : State) (v : Word) : (s.acknowledge v).a = s.a := rfl
@[simp] theorem State.acknowledge_b (s : State) (v : Word) : (s.acknowledge v).b = s.b := rfl
@[simp] theorem State.acknowledge_m (s : State) (v : Word) : (s.acknowledge v).m = s.m := rfl
@[simp] theorem State.acknowledge_c (s : State) (v : Word) : (s.acknowledge v).c = s.c := rfl
@[simp] theorem State.acknowledge_r0 (s : State) (v : Word) : (s.acknowledge v).r0 = s.r0 := rfl
@[simp] theorem State.acknowledge_r1 (s : State) (v : Word) : (s.acknowledge v).r1 = s.r1 := rfl
@[simp] theorem State.acknowledge_r2 (s : State) (v : Word) : (s.acknowledge v).r2 = s.r2 := rfl
@[simp] theorem State.acknowledge_attempts (s : State) (v : Word) : (s.acknowledge v).attempts = s.attempts := rfl
@[simp] theorem State.acknowledge_seq (s : State) (v : Word) : (s.acknowledge v).seq = s.seq := rfl
@[simp] theorem State.acknowledge_rst (s : State) (v : Word) : (s.acknowledge v).rst = s.rst := rfl
@[simp] theorem State.acknowledge_inbox (s : State) (v : Word) : (s.acknowledge v).inbox = s.inbox := rfl
@[simp] theorem State.acknowledge_busData (s : State) (v : Word) : (s.acknowledge v).busData = s.busData := rfl
@[simp] theorem State.acknowledge_freeReads (s : State) (v : Word) : (s.acknowledge v).freeReads = s.freeReads := rfl

@[simp] theorem State.issue_ctrl (s : State) (w : Word32) : (s.issue w).ctrl = s.ctrl := rfl
@[simp] theorem State.issue_status (s : State) (w : Word32) : (s.issue w).status = s.status.started (w.extractLsb' 0 4) := rfl
@[simp] theorem State.issue_retryLimit (s : State) (w : Word32) : (s.issue w).retryLimit = s.retryLimit := rfl
@[simp] theorem State.issue_seed (s : State) (w : Word32) : (s.issue w).seed = s.seed := rfl
@[simp] theorem State.issue_a (s : State) (w : Word32) : (s.issue w).a = s.a := rfl
@[simp] theorem State.issue_b (s : State) (w : Word32) : (s.issue w).b = s.b := rfl
@[simp] theorem State.issue_m (s : State) (w : Word32) : (s.issue w).m = s.m := rfl
@[simp] theorem State.issue_c (s : State) (w : Word32) : (s.issue w).c = s.c := rfl
@[simp] theorem State.issue_r0 (s : State) (w : Word32) : (s.issue w).r0 = s.r0 := rfl
@[simp] theorem State.issue_r1 (s : State) (w : Word32) : (s.issue w).r1 = s.r1 := rfl
@[simp] theorem State.issue_r2 (s : State) (w : Word32) : (s.issue w).r2 = s.r2 := rfl
@[simp] theorem State.issue_attempts (s : State) (w : Word32) : (s.issue w).attempts = s.attempts := rfl
@[simp] theorem State.issue_seq (s : State) (w : Word32) : (s.issue w).seq = .running (Run.after (s.snapshot (decodeWord w)) []) := rfl
@[simp] theorem State.issue_rst (s : State) (w : Word32) : (s.issue w).rst = s.rst := rfl
@[simp] theorem State.issue_inbox (s : State) (w : Word32) : (s.issue w).inbox = s.inbox := rfl
@[simp] theorem State.issue_busData (s : State) (w : Word32) : (s.issue w).busData = s.busData := rfl
@[simp] theorem State.issue_freeReads (s : State) (w : Word32) : (s.issue w).freeReads = s.freeReads := rfl

@[simp] theorem State.hardReset_ctrl (s : State) : (s.hardReset).ctrl = State.reset.ctrl := rfl
@[simp] theorem State.hardReset_status (s : State) : (s.hardReset).status = State.reset.status := rfl
@[simp] theorem State.hardReset_retryLimit (s : State) : (s.hardReset).retryLimit = State.reset.retryLimit := rfl
@[simp] theorem State.hardReset_seed (s : State) : (s.hardReset).seed = State.reset.seed := rfl
@[simp] theorem State.hardReset_a (s : State) : (s.hardReset).a = State.reset.a := rfl
@[simp] theorem State.hardReset_b (s : State) : (s.hardReset).b = State.reset.b := rfl
@[simp] theorem State.hardReset_m (s : State) : (s.hardReset).m = State.reset.m := rfl
@[simp] theorem State.hardReset_c (s : State) : (s.hardReset).c = State.reset.c := rfl
@[simp] theorem State.hardReset_r0 (s : State) : (s.hardReset).r0 = State.reset.r0 := rfl
@[simp] theorem State.hardReset_r1 (s : State) : (s.hardReset).r1 = State.reset.r1 := rfl
@[simp] theorem State.hardReset_r2 (s : State) : (s.hardReset).r2 = State.reset.r2 := rfl
@[simp] theorem State.hardReset_attempts (s : State) : (s.hardReset).attempts = State.reset.attempts := rfl
@[simp] theorem State.hardReset_seq (s : State) : (s.hardReset).seq = State.reset.seq := rfl
@[simp] theorem State.hardReset_rst (s : State) : (s.hardReset).rst = s.rst := rfl
@[simp] theorem State.hardReset_inbox (s : State) : (s.hardReset).inbox = s.inbox := rfl
@[simp] theorem State.hardReset_busData (s : State) : (s.hardReset).busData = s.busData := rfl
@[simp] theorem State.hardReset_freeReads (s : State) : (s.hardReset).freeReads = s.freeReads := rfl

@[simp] theorem State.setCtrl_ctrl (s : State) (v : Word) : (s.setCtrl v).ctrl = ⟨v.getLsbD 8, v.getLsbD 9⟩ := rfl
@[simp] theorem State.setCtrl_status (s : State) (v : Word) : (s.setCtrl v).status = s.status := rfl
@[simp] theorem State.setCtrl_retryLimit (s : State) (v : Word) : (s.setCtrl v).retryLimit = s.retryLimit := rfl
@[simp] theorem State.setCtrl_seed (s : State) (v : Word) : (s.setCtrl v).seed = s.seed := rfl
@[simp] theorem State.setCtrl_a (s : State) (v : Word) : (s.setCtrl v).a = s.a := rfl
@[simp] theorem State.setCtrl_b (s : State) (v : Word) : (s.setCtrl v).b = s.b := rfl
@[simp] theorem State.setCtrl_m (s : State) (v : Word) : (s.setCtrl v).m = s.m := rfl
@[simp] theorem State.setCtrl_c (s : State) (v : Word) : (s.setCtrl v).c = s.c := rfl
@[simp] theorem State.setCtrl_r0 (s : State) (v : Word) : (s.setCtrl v).r0 = s.r0 := rfl
@[simp] theorem State.setCtrl_r1 (s : State) (v : Word) : (s.setCtrl v).r1 = s.r1 := rfl
@[simp] theorem State.setCtrl_r2 (s : State) (v : Word) : (s.setCtrl v).r2 = s.r2 := rfl
@[simp] theorem State.setCtrl_attempts (s : State) (v : Word) : (s.setCtrl v).attempts = s.attempts := rfl
@[simp] theorem State.setCtrl_seq (s : State) (v : Word) : (s.setCtrl v).seq = s.seq := rfl
@[simp] theorem State.setCtrl_rst (s : State) (v : Word) : (s.setCtrl v).rst = s.rst := rfl
@[simp] theorem State.setCtrl_inbox (s : State) (v : Word) : (s.setCtrl v).inbox = s.inbox := rfl
@[simp] theorem State.setCtrl_busData (s : State) (v : Word) : (s.setCtrl v).busData = s.busData := rfl
@[simp] theorem State.setCtrl_freeReads (s : State) (v : Word) : (s.setCtrl v).freeReads = s.freeReads := rfl

@[simp] theorem Status.started_done (st : Status) (l : BitVec 4) : (st.started l).done = false := rfl
@[simp] theorem Status.started_err (st : Status) (l : BitVec 4) : (st.started l).err = false := rfl
@[simp] theorem Status.started_flag (st : Status) (l : BitVec 4) : (st.started l).flag = false := rfl
@[simp] theorem Status.started_oor (st : Status) (l : BitVec 4) : (st.started l).oor = false := rfl
@[simp] theorem Status.started_trunc (st : Status) (l : BitVec 4) : (st.started l).trunc = false := rfl
@[simp] theorem Status.started_cmdOvr (st : Status) (l : BitVec 4) : (st.started l).cmdOvr = st.cmdOvr := rfl
@[simp] theorem Status.started_errcode (st : Status) (l : BitVec 4) : (st.started l).errcode = .none := rfl
@[simp] theorem Status.started_lastop (st : Status) (l : BitVec 4) : (st.started l).lastop = l := rfl

@[simp] theorem Status.succeeded_done (st : Status) (f : Flags) : (st.succeeded f).done = true := rfl
@[simp] theorem Status.succeeded_err (st : Status) (f : Flags) : (st.succeeded f).err = false := rfl
@[simp] theorem Status.succeeded_flag (st : Status) (f : Flags) : (st.succeeded f).flag = f.flag := rfl
@[simp] theorem Status.succeeded_oor (st : Status) (f : Flags) : (st.succeeded f).oor = f.oor := rfl
@[simp] theorem Status.succeeded_trunc (st : Status) (f : Flags) : (st.succeeded f).trunc = f.trunc := rfl
@[simp] theorem Status.succeeded_cmdOvr (st : Status) (f : Flags) : (st.succeeded f).cmdOvr = st.cmdOvr := rfl
@[simp] theorem Status.succeeded_errcode (st : Status) (f : Flags) : (st.succeeded f).errcode = .none := rfl
@[simp] theorem Status.succeeded_lastop (st : Status) (f : Flags) : (st.succeeded f).lastop = st.lastop := rfl

@[simp] theorem Status.failed_done (st : Status) (code : ErrCode) : (st.failed code).done = true := rfl
@[simp] theorem Status.failed_err (st : Status) (code : ErrCode) : (st.failed code).err = true := rfl
@[simp] theorem Status.failed_flag (st : Status) (code : ErrCode) : (st.failed code).flag = false := rfl
@[simp] theorem Status.failed_oor (st : Status) (code : ErrCode) : (st.failed code).oor = false := rfl
@[simp] theorem Status.failed_trunc (st : Status) (code : ErrCode) : (st.failed code).trunc = false := rfl
@[simp] theorem Status.failed_cmdOvr (st : Status) (code : ErrCode) : (st.failed code).cmdOvr = st.cmdOvr := rfl
@[simp] theorem Status.failed_errcode (st : Status) (code : ErrCode) : (st.failed code).errcode = code := rfl
@[simp] theorem Status.failed_lastop (st : Status) (code : ErrCode) : (st.failed code).lastop = st.lastop := rfl

@[simp] theorem Status.acknowledged_done (st : Status) (v : Word) : (st.acknowledged v).done = (st.done && !v.getLsbD 1) := rfl
@[simp] theorem Status.acknowledged_err (st : Status) (v : Word) : (st.acknowledged v).err = st.err := rfl
@[simp] theorem Status.acknowledged_flag (st : Status) (v : Word) : (st.acknowledged v).flag = st.flag := rfl
@[simp] theorem Status.acknowledged_oor (st : Status) (v : Word) : (st.acknowledged v).oor = st.oor := rfl
@[simp] theorem Status.acknowledged_trunc (st : Status) (v : Word) : (st.acknowledged v).trunc = st.trunc := rfl
@[simp] theorem Status.acknowledged_cmdOvr (st : Status) (v : Word) : (st.acknowledged v).cmdOvr = (st.cmdOvr && !v.getLsbD 6) := rfl
@[simp] theorem Status.acknowledged_errcode (st : Status) (v : Word) : (st.acknowledged v).errcode = st.errcode := rfl
@[simp] theorem Status.acknowledged_lastop (st : Status) (v : Word) : (st.acknowledged v).lastop = st.lastop := rfl

@[simp] theorem Run.after_op (op : Snapshot) (ws : List Word32) : (Run.after op ws).op = op := rfl
@[simp] theorem Run.after_words (op : Snapshot) (ws : List Word32) : (Run.after op ws).words = ws := rfl
@[simp] theorem Run.after_port (op : Snapshot) (ws : List Word32) : (Run.after op ws).port = none := rfl
@[simp] theorem State.snapshot_op (s : State) (i : Instr) : (s.snapshot i).op = i := rfl

@[simp] theorem State.busy_idle (s : State) (h : s.seq = .idle) : s.busy = false := by simp [State.busy, h]
@[simp] theorem State.busy_running (s : State) (run : Run) (h : s.seq = .running run) : s.busy = true := by simp [State.busy, h]

theorem State.busy_iff (s : State) : s.busy = true ↔ ∃ run, s.seq = .running run := by
  cases h : s.seq <;> simp [State.busy, h]

theorem State.not_busy_iff (s : State) : s.busy = false ↔ s.seq = .idle := by
  cases h : s.seq <;> simp [State.busy, h]

theorem State.onRun_running (s : State) (run : Run) (f : Run → State) (h : s.seq = .running run) : s.onRun f = f run := by
  simp [State.onRun, h]

theorem State.onRun_idle (s : State) (f : Run → State) (h : s.seq = .idle) : s.onRun f = s := by
  simp [State.onRun, h]

end Sys2Proof.Machine
end

