-- ==== Sys2Proof/Laws/Ops.lean ====
section
/-! SUPPORT. One lemma per shared operation that says once everything it can do. -/

namespace Sys2Proof.Machine

open Sys2Proof

theorem narrow_toNat (n : Nat) (h : n < 2 ^ 64) : (narrow n).toNat = n := by
  simpa [narrow] using Nat.mod_eq_of_lt h

theorem attemptsOf_toNat (n : Nat) (h : n < 2 ^ 64) : (attemptsOf n).toNat = n := by
  rw [attemptsOf, if_pos h]
  simpa using Nat.mod_eq_of_lt h

theorem lowU32_lt (v : Word) : lowU32 v < 2 ^ 32 := (v.extractLsb' 0 32).isLt

/-- R56: a register that fits has its low half as its value. -/
theorem fitsU32_iff (v : Word) : fitsU32 v = true ↔ v.toNat < 2 ^ 32 := by
  have h := v.isLt
  simp only [fitsU32, beq_iff_eq, ← BitVec.toNat_inj, BitVec.extractLsb'_toNat, Nat.shiftRight_eq_div_pow]
  norm_num
  omega

theorem lowU32_eq (v : Word) (h : v.toNat < 2 ^ 32) : lowU32 v = v.toNat := by
  simp only [lowU32, BitVec.extractLsb'_toNat, Nat.shiftRight_eq_div_pow]
  norm_num
  omega

theorem word_eq_zero_iff (v : Word) : v = 0#64 ↔ v.toNat = 0 := by
  rw [← BitVec.toNat_inj]; rfl

/-- R59: the illegal words, by number. -/
theorem wordIllegal_iff (w : Word32) : wordIllegal w = true ↔ (w.toNat / 16 ≠ 0 ∨ 9 ≤ w.toNat % 16) := by
  have h := w.isLt
  simp only [wordIllegal, Bool.or_eq_true, bne_iff_ne, ne_eq, ← BitVec.toNat_inj, BitVec.extractLsb'_toNat, decide_eq_true_eq,
    BitVec.le_def, Nat.shiftRight_eq_div_pow]
  norm_num
  omega

/-- R90: the candidate's number is the word's with bits 31 and 0 set. -/
theorem cand_toNat (w : Word32) : (cand w).toNat = (w ||| 0x80000001#32).toNat := by
  unfold cand
  rw [BitVec.toNat_setWidth]
  exact Nat.mod_eq_of_lt (lt_trans (BitVec.isLt _) (by norm_num))

/-- R90, R91: what the test of a candidate says. -/
theorem candPrime_iff (w : Word32) : candPrime w = true ↔ Nat.Prime (w ||| 0x80000001#32).toNat := by
  rw [candPrime, isPrime_iff, cand_toNat]

/-- R87: the steps of the internal generator, over naturals. -/
theorem splitmixState_toNat (s : Word) : (splitmixState s).toNat = (s.toNat + 0x9E3779B97F4A7C15) % 2 ^ 64 := by
  unfold splitmixState
  exact BitVec.toNat_add s _

theorem splitmixMix1_toNat (z : Word) : (splitmixMix1 z).toNat = (z.toNat ^^^ (z.toNat >>> 30)) * 0xBF58476D1CE4E5B9 % 2 ^ 64 := by
  unfold splitmixMix1
  rw [BitVec.toNat_mul, BitVec.toNat_xor, BitVec.toNat_ushiftRight, BitVec.toNat_ofNat]

theorem splitmixMix2_toNat (z : Word) : (splitmixMix2 z).toNat = (z.toNat ^^^ (z.toNat >>> 27)) * 0x94D049BB133111EB % 2 ^ 64 := by
  unfold splitmixMix2
  rw [BitVec.toNat_mul, BitVec.toNat_xor, BitVec.toNat_ushiftRight, BitVec.toNat_ofNat]

theorem splitmixMix3_toNat (z : Word) : (splitmixMix3 z).toNat = z.toNat ^^^ (z.toNat >>> 31) := by
  rw [splitmixMix3, BitVec.toNat_xor, BitVec.toNat_ushiftRight]

/-- R69: the successful completion. -/
theorem State.complete_completed (s : State) (run : Run) (x y z : Word) (f : Flags) :
    Completed s (s.complete run x y z f) run x.toNat y.toNat z.toNat f.flag f.oor f.trunc where
  r0 := rfl
  r1 := rfl
  r2 := rfl
  attempts := attemptsOf_toNat _
  flag := rfl
  oor := rfl
  trunc := rfl
  err := rfl
  errcode := rfl
  busy := rfl
  done := rfl
  seed := rfl
  rest := ⟨rfl, rfl, rfl, rfl, rfl, rfl, rfl, rfl, rfl, rfl, rfl, rfl⟩

/-- R70: the error completion. -/
theorem State.raise_failed (s : State) (run : Run) (code : ErrCode) : Failed s (s.raise run code) run code.code where
  r0 := rfl
  r1 := rfl
  r2 := rfl
  attempts := attemptsOf_toNat _
  flag := rfl
  oor := rfl
  trunc := rfl
  err := rfl
  errcode := rfl
  busy := rfl
  done := rfl
  seed := rfl
  rest := ⟨rfl, rfl, rfl, rfl, rfl, rfl, rfl, rfl, rfl, rfl, rfl, rfl⟩

/-- R88: everything a draw can do. -/
theorem State.draw_cases (s : State) (run : Run) :
    (run.op.capReached run.words.length = true ∧ s.draw run = s.raise run .retryExhausted) ∨
    (run.op.capReached run.words.length = false ∧ run.op.src = true ∧
      s.draw run = { s with
        seed := (splitmixNext s.seed).1
        seq := .running (Run.after run.op (run.words ++ [(splitmixNext s.seed).2])) }) ∨
    (run.op.capReached run.words.length = false ∧ run.op.src = false ∧ ∃ w, run.port = some w ∧
      s.draw run = { s with seq := .running (Run.after run.op (run.words ++ [w])) }) ∨
    (run.op.capReached run.words.length = false ∧ run.op.src = false ∧ run.port = none ∧ s.draw run = s) := by
  unfold State.draw
  cases hc : run.op.capReached run.words.length <;> cases hs : run.op.src <;> cases hp : run.port <;> simp

/-- R88: when the cap is reached, by number. -/
theorem capReached_iff (op : Snapshot) (n : Nat) : op.capReached n = true ↔ op.limit.toNat ≠ 0 ∧ n = op.limit.toNat := by
  simp [Snapshot.capReached, word_eq_zero_iff]

/-- R65, R66: everything a delivered command word can do. -/
theorem State.deliverCmd_cases (s : State) (w : Word32) :
    (s.busy = true ∧ s.deliverCmd w = { s with status := { s.status with cmdOvr := true } }) ∨
    (s.busy = false ∧ s.deliverCmd w = s.issue w) := by
  unfold State.deliverCmd
  cases s.busy <;> simp

/-- R75: everything an abort can do. -/
theorem State.abort_cases (s : State) :
    (s.seq = .idle ∧ s.abort = s) ∨ (∃ run, s.seq = .running run ∧ s.abort = s.raise run .aborted) := by
  unfold State.abort State.onRun
  cases s.seq <;> simp

/-- R45: everything a write of CTRL can do. -/
theorem State.writeCtrl_cases (s : State) (v : Word) :
    (v.getLsbD 1 = true ∧ s.writeCtrl v = s.hardReset.setCtrl v) ∨
    (v.getLsbD 1 = false ∧ s.writeCtrl v = s.setCtrl v) ∨
    (v.getLsbD 1 = false ∧ v.getLsbD 0 = true ∧ ∃ run, s.seq = .running run ∧ s.writeCtrl v = (s.setCtrl v).raise run .aborted) := by
  unfold State.writeCtrl
  cases h1 : v.getLsbD 1 <;> cases h0 : v.getLsbD 0 <;> simp
  rcases State.abort_cases (s.setCtrl v) with ⟨_, h⟩ | ⟨run, hr, h⟩
  · exact .inl h
  · exact .inr ⟨run, hr, h⟩

/-- R89: everything the sequencer step of a drawing command can do. -/
theorem State.proceed_cases (s : State) (run : Run) (res : ProcResult) :
    (∃ x y z, res = .done x y z ∧ s.proceed run res = s.complete run x y z ⟨false, false, false⟩) ∨
    (res = .need ∧ s.proceed run res = s.draw run) := by
  cases res with
  | done x y z => exact .inl ⟨x, y, z, rfl, rfl⟩
  | need => exact .inr ⟨rfl, rfl⟩

/-- The sequencer step of each command on a running run (R68): which shared operation it is. -/
theorem exec_running (i : Instr) (s : State) (run : Run) (h : s.seq = .running run) :
    (i = .nop ∧ exec i s = .next s.completeNop) ∨
    (∃ code, code ≠ .none ∧ exec i s = .next (s.raise run code)) ∨
    (∃ x y z f, exec i s = .next (s.complete run x y z f) ∧ (f.flag = true → i = .modinv ∨ i = .primetest) ∧
      (f.oor = true → i = .encrypt) ∧ (f.trunc = true → i = .decrypt)) ∨
    ((i = .primegen ∨ i = .keygen) ∧ wantsWord i run.words = true ∧ exec i s = .next (s.draw run)) := by
  cases i with
  | nop => exact .inl ⟨rfl, by simp [exec, execNop, State.onRun_running s run _ h]⟩
  | modmul =>
    right; simp only [exec, execModmul, State.onRun_running s run _ h]
    split
    · exact .inl ⟨_, by decide, rfl⟩
    · exact .inr (.inl ⟨_, _, _, _, rfl, by simp⟩)
  | modexp =>
    right; simp only [exec, execModexp, State.onRun_running s run _ h]
    split
    · exact .inl ⟨_, by decide, rfl⟩
    · exact .inr (.inl ⟨_, _, _, _, rfl, by simp⟩)
  | modinv =>
    right; simp only [exec, execModinv, State.onRun_running s run _ h]
    split
    · exact .inl ⟨_, by decide, rfl⟩
    · split
      · exact .inr (.inl ⟨_, _, _, _, rfl, by simp⟩)
      · exact .inr (.inl ⟨_, _, _, _, rfl, by simp⟩)
  | primetest =>
    right; simp only [exec, execPrimetest, State.onRun_running s run _ h]
    split
    · exact .inr (.inl ⟨_, _, _, _, rfl, by simp⟩)
    · exact .inl ⟨_, by decide, rfl⟩
  | primegen =>
    right; simp only [exec, execPrimegen, State.onRun_running s run _ h]
    rcases State.proceed_cases s run (primegenProc run.words) with ⟨x, y, z, _, e⟩ | ⟨hn, e⟩
    · exact .inr (.inl ⟨x, y, z, _, by rw [e], by simp⟩)
    · exact .inr (.inr ⟨.inl trivial, by simp [wantsWord, hn], by rw [e]⟩)
  | keygen =>
    right; simp only [exec, execKeygen, State.onRun_running s run _ h]
    rcases State.proceed_cases s run (keygenProc run.words) with ⟨x, y, z, _, e⟩ | ⟨hn, e⟩
    · exact .inr (.inl ⟨x, y, z, _, by rw [e], by simp⟩)
    · exact .inr (.inr ⟨.inr trivial, by simp [wantsWord, hn], by rw [e]⟩)
  | encrypt =>
    right; simp only [exec, execEncrypt, State.onRun_running s run _ h]
    split
    · exact .inl ⟨_, by decide, rfl⟩
    · split
      · exact .inl ⟨_, by decide, rfl⟩
      · exact .inr (.inl ⟨_, _, _, _, rfl, by simp⟩)
  | decrypt =>
    right; simp only [exec, execDecrypt, State.onRun_running s run _ h]
    split
    · exact .inl ⟨_, by decide, rfl⟩
    · split
      · exact .inl ⟨_, by decide, rfl⟩
      · split
        · exact .inl ⟨_, by decide, rfl⟩
        · exact .inr (.inl ⟨_, _, _, _, rfl, by simp⟩)
  | illegal w =>
    right; simp only [exec, execIllegal, State.onRun_running s run _ h]
    exact .inl ⟨_, by decide, rfl⟩

/-- An IDLE sequencer does nothing (R113). -/
theorem exec_idle (i : Instr) (s : State) (h : s.seq = .idle) : exec i s = .next s := by
  cases i <;>
    simp [exec, execNop, execModmul, execModexp, execModinv, execPrimetest, execPrimegen, execKeygen, execEncrypt, execDecrypt,
      execIllegal, State.onRun_idle s _ h]

end Sys2Proof.Machine
end

