-- ==== Sys2Proof/Laws/Step.lean ====
section
/-! SUPPORT. What a host access, a turn and a step can do, said once. -/

namespace Sys2Proof.Machine

open Sys2Proof

/-- R44: everything an admitted write can do. -/
theorem State.memWrite_cases (s : State) (off bytes : Nat) (v : Word) :
    s.memWrite off bytes v = s ∨
    (∃ x, s.memWrite off bytes v = { s with retryLimit := x } ∨ s.memWrite off bytes v = { s with a := x } ∨
      s.memWrite off bytes v = { s with b := x } ∨ s.memWrite off bytes v = { s with m := x } ∨ s.memWrite off bytes v = { s with c := x }) ∨
    (s.busy = false ∧ ∃ x, s.memWrite off bytes v = { s with seed := x }) ∨
    (regAt off = some .status ∧ presentsLow off = true ∧ s.memWrite off bytes v = s.acknowledge v) ∨
    (regAt off = some .cmd ∧ presentsLow off = true ∧ s.memWrite off bytes v = s.deliverCmd (v.extractLsb' 0 32)) ∨
    (regAt off = some .ctrl ∧ presentsLow off = true ∧ s.memWrite off bytes v = s.writeCtrl v) := by
  unfold State.memWrite
  split
  · cases h : regAt off with
    | none => exact .inl rfl
    | some r =>
      cases r <;> simp only [State.writeReg]
      case seed => cases hb : s.busy <;> simp
      case cmd => cases presentsLow off <;> simp
      case ctrl => cases presentsLow off <;> simp
      case status => cases presentsLow off <;> simp
      case retryLimit => exact .inr (.inl ⟨_, .inl rfl⟩)
      case a => exact .inr (.inl ⟨_, .inr (.inl rfl)⟩)
      case b => exact .inr (.inl ⟨_, .inr (.inr (.inl rfl))⟩)
      case m => exact .inr (.inl ⟨_, .inr (.inr (.inr (.inl rfl)))⟩)
      case c => exact .inr (.inl ⟨_, .inr (.inr (.inr (.inr rfl)))⟩)
      all_goals exact .inl trivial
  · exact .inl rfl

/-- R36: an offset of the window, as an address. -/
theorem windowOffset_base (off : Nat) (h : off < 0x100) : windowOffset (Config.rsacoreBase + off) = some off := by
  unfold windowOffset Config.windowBytes
  rw [if_pos (by omega)]
  simp

/-- R43: a host read at an offset of the window. -/
theorem State.hostAccess_read (s : State) (off bytes : Nat) (h : off < 0x100) :
    s.hostAccess (.read (Config.rsacoreBase + off) bytes) =
      if accessAdmitted off bytes then .next (s.afterRead off bytes) else .fault .busError := by
  simp [State.hostAccess, BusAccess.addr, windowOffset_base off h, State.accessAt]

/-- R44: a host write at an offset of the window. -/
theorem State.hostAccess_write (s : State) (off bytes : Nat) (v : Word) (h : off < 0x100) :
    s.hostAccess (.write (Config.rsacoreBase + off) bytes v) =
      if accessAdmitted off bytes then .next (s.memWrite off bytes v) else .fault .busError := by
  simp [State.hostAccess, BusAccess.addr, windowOffset_base off h, State.accessAt]

/-- R36, R42, R46: everything a host access that goes on can do. -/
theorem State.hostAccess_next (s t : State) (access : BusAccess) (h : s.hostAccess access = .next t) :
    ∃ off, windowOffset access.addr = some off ∧
      ((∃ addr bytes, access = .read addr bytes ∧ accessAdmitted off bytes = true ∧ t = s.afterRead off bytes) ∨
        ∃ addr bytes v, access = .write addr bytes v ∧ accessAdmitted off bytes = true ∧ t = s.memWrite off bytes v) := by
  unfold State.hostAccess at h
  split at h
  · rename_i off hw
    cases access with
    | read addr bytes =>
      simp only [State.accessAt] at h
      split at h
      · rename_i ha
        exact ⟨off, hw, .inl ⟨addr, bytes, rfl, ha, by injection h with h; exact h.symm⟩⟩
      · cases h
    | write addr bytes v =>
      simp only [State.accessAt] at h
      split at h
      · rename_i ha
        exact ⟨off, hw, .inr ⟨addr, bytes, v, rfl, ha, by injection h with h; exact h.symm⟩⟩
      · cases h
  · cases h

/-- The sequencer step of a command always goes on: no meaning faults or refuses. -/
theorem exec_next (i : Instr) (s : State) : ∃ t, exec i s = .next t := by
  cases hs : s.seq with
  | idle => exact ⟨s, exec_idle i s hs⟩
  | running run =>
    rcases exec_running i s run hs with ⟨_, h⟩ | ⟨_, _, h⟩ | ⟨_, _, _, _, h, _⟩ | ⟨_, _, h⟩ <;> exact ⟨_, h⟩

/-- The turns of the inbox: the next one, and the state it acts on. -/
theorem takeTurn_cons (s : State) (t : Turn) (rest : List Turn) (h : s.inbox = t :: rest) :
    s.takeTurn = (t, { s with inbox := rest }) := by
  simp [State.takeTurn, h]

theorem takeTurn_nil (s : State) (h : s.inbox = []) : s.takeTurn = (.sequencer, s) := by
  simp [State.takeTurn, h]

theorem step_nil (s : State) (h : s.inbox = []) : step s = s.turn .sequencer := by
  simp [step, takeTurn_nil s h]

theorem step_cons (s : State) (t : Turn) (rest : List Turn) (h : s.inbox = t :: rest) : step s = { s with inbox := rest }.turn t := by
  simp [step, takeTurn_cons s t rest h]

/-- A step on the host's turn. -/
theorem step_host (s : State) (access : BusAccess) (rest : List Turn) (hr : s.rst = false) (hi : s.inbox = .host access :: rest) :
    step s = { s with inbox := rest }.hostAccess access := by
  rw [step_cons s _ _ hi]
  simp [State.turn, hr, State.liveTurn]

/-- A step with an empty inbox is the sequencer's (log 2): `exec` of the running command. -/
theorem step_running (s : State) (run : Run) (hr : s.rst = false) (hi : s.inbox = []) (hs : s.seq = .running run) :
    step s = exec run.op.op s := by
  rw [step_nil s hi]
  simp [State.turn, hr, State.liveTurn, State.sequencerTurn, hs]

/-- R113: a step with an empty inbox and an IDLE sequencer changes nothing. -/
theorem step_idle (s : State) (hr : s.rst = false) (hi : s.inbox = []) (hs : s.seq = .idle) : step s = .next s := by
  rw [step_nil s hi]
  simp [State.turn, hr, State.liveTurn, State.sequencerTurn, hs]

/-- A run of no step. -/
theorem core_run_zero (s : State) : core.run 0 s = .next s := rfl

theorem host_run_succ (machine : Host.Core) (k : Nat) (s t : machine.State) (h : machine.step s = .next t) :
    machine.run (k + 1) s = machine.run k t := by
  simp only [Host.Core.run, h]

theorem host_run_fault (machine : Host.Core) (k : Nat) (s : machine.State) (r : machine.Fault) (h : machine.step s = .fault r) :
    machine.run (k + 1) s = .fault r := by
  simp only [Host.Core.run, h]

theorem host_run_refused (machine : Host.Core) (k : Nat) (s : machine.State) (r : machine.Refusal) (h : machine.step s = .refused r) :
    machine.run (k + 1) s = .refused r := by
  simp only [Host.Core.run, h]

/-- A run whose first step goes on. -/
theorem core_run_succ (k : Nat) (s t : State) (h : step s = .next t) : core.run (k + 1) s = core.run k t :=
  host_run_succ core k s t h

theorem seedAfter_zero (seed : Word) : seedAfter 0 seed = seed := rfl

theorem seedAfter_succ (k : Nat) (seed : Word) : seedAfter (k + 1) seed = seedAfter k (splitmixNext seed).1 :=
  Function.iterate_succ_apply (fun seed => (splitmixNext seed).1) k seed

theorem seedWords_zero (seed : Word) : seedWords 0 seed = [] := rfl

theorem seedWords_succ (k : Nat) (seed : Word) :
    seedWords (k + 1) seed = (splitmixNext seed).2 :: seedWords k (splitmixNext seed).1 := rfl

/-- A step is a turn taken on a state that differs from `s` at most in the inbox. -/
theorem step_turn (s : State) : ∃ t rest, step s = { s with inbox := rest }.turn t := by
  cases h : s.inbox with
  | nil => exact ⟨.sequencer, [], by rw [step_nil s h, ← h]⟩
  | cons t rest => exact ⟨t, rest, step_cons s t rest h⟩

/-- Everything a turn that goes on can do while `rst` is released. -/
theorem liveTurn_next (s t : State) (turn : Turn) (h : s.liveTurn turn = .next t) :
    t = s ∨
    (∃ access off, turn = .host access ∧ windowOffset access.addr = some off ∧
      ((∃ addr bytes, access = .read addr bytes ∧ accessAdmitted off bytes = true ∧ t = s.afterRead off bytes) ∨
        ∃ addr bytes v, access = .write addr bytes v ∧ accessAdmitted off bytes = true ∧ t = s.memWrite off bytes v)) ∨
    (∃ run, turn = .sequencer ∧ s.seq = .running run ∧ exec run.op.op s = .next t) ∨
    (∃ run w, turn = .entropy w ∧ s.seq = .running run ∧ run.request = true ∧
      exec run.op.op { s with seq := .running { run with request := false, port := some w } } = .next t) ∨
    (turn = .reset true ∧ t = { s with rst := true }.hardReset) := by
  cases turn with
  | host access =>
    obtain ⟨off, hw, hr⟩ := State.hostAccess_next s t access h
    exact .inr (.inl ⟨access, off, rfl, hw, hr⟩)
  | sequencer =>
    simp only [State.liveTurn, State.sequencerTurn] at h
    split at h
    · injection h with h; exact .inl h.symm
    · rename_i run hs
      exact .inr (.inr (.inl ⟨run, rfl, hs, h⟩))
  | entropy w =>
    simp only [State.liveTurn, State.entropyTurn] at h
    split at h
    · injection h with h; exact .inl h.symm
    · rename_i run hs
      split at h
      · rename_i hq
        exact .inr (.inr (.inr (.inl ⟨run, w, rfl, hs, hq, h⟩)))
      · injection h with h; exact .inl h.symm
  | reset asserted =>
    simp only [State.liveTurn] at h
    cases asserted with
    | false => injection h with h; exact .inl h.symm
    | true => injection h with h; exact .inr (.inr (.inr (.inr ⟨rfl, h.symm⟩)))

/-- Everything a turn that goes on can do while `rst` is asserted: the registers are at reset. -/
theorem resetTurn_next (s t : State) (turn : Turn) (h : s.resetTurn turn = .next t) : t = t.hardReset := by
  cases turn with
  | host access =>
    simp only [State.resetTurn] at h
    cases hh : s.hardReset.hostAccess access <;> rw [hh] at h <;> simp only [heldInReset] at h
    · injection h with h; subst h; rfl
    · cases h
    · cases h
  | sequencer => injection h with h; subst h; rfl
  | entropy w => injection h with h; subst h; rfl
  | reset asserted => injection h with h; subst h; rfl

end Sys2Proof.Machine
end

