-- ==== Sys2Proof/Laws/Bus.lean ====
section
/-! SUPPORT. The bits of the window: masks, lanes, CTRL and STATUS bit by bit (20_memory.md rule R41; 10_state.md rules R19, R20). -/

namespace Sys2Proof.Machine

open Sys2Proof

/-- R39, R40: the admitted accesses. -/
theorem accessAdmitted_iff (off bytes : Nat) :
    accessAdmitted off bytes = true ↔ (bytes = 4 ∧ off % 4 = 0 ∨ bytes = 8 ∧ off % 8 = 0) := by
  simp only [accessAdmitted, Bool.and_eq_true, Bool.or_eq_true, beq_iff_eq]
  constructor
  · rintro ⟨h | h, h2⟩ <;> subst h <;> simp [h2]
  · rintro (⟨h, h2⟩ | ⟨h, h2⟩) <;> subst h <;> simp [h2]

theorem widthMask_getLsbD (n k : Nat) (hn : 8 * n ≤ 64) : (widthMask n).getLsbD k = decide (k < 8 * n) := by
  simp only [widthMask, BitVec.getLsbD_ofNat, Nat.testBit_two_pow_sub_one]
  by_cases h : k < 64 <;> simp [h]
  omega

/-- R41: the bits an access reads. -/
theorem readLanes_getLsbD (v : Word) (off bytes k : Nat) (hn : 8 * bytes ≤ 64) :
    (readLanes v off bytes).getLsbD k = (decide (k < 8 * bytes) && v.getLsbD (8 * (off % 8) + k)) := by
  rw [readLanes, BitVec.getLsbD_and, BitVec.getLsbD_ushiftRight, widthMask_getLsbD _ _ hn, Bool.and_comm]

/-- R41: an aligned 8-byte access reads the whole register. -/
theorem readLanes_whole (v : Word) (off : Nat) (h : off % 8 = 0) : readLanes v off 8 = v := by
  apply BitVec.eq_of_getLsbD_eq
  intro k hk
  rw [readLanes_getLsbD v off 8 k (by omega), h]
  simp [hk]

/-- R44: the bits of a register after a write. -/
theorem mergeLanes_getLsbD (off bytes : Nat) (old v : Word) (k : Nat) (hk : k < 64)
    (hn : bytes = 8 ∧ off % 8 = 0 ∨ bytes = 4 ∧ off % 8 = 0 ∨ bytes = 4 ∧ off % 8 = 4) :
    (mergeLanes old v off bytes).getLsbD k =
      if 8 * (off % 8) ≤ k ∧ k < 8 * (off % 8 + bytes) then v.getLsbD (k - 8 * (off % 8)) else old.getLsbD k := by
  have hb : 8 * bytes ≤ 64 := by omega
  simp only [mergeLanes, laneMask, placeLanes, BitVec.getLsbD_or, BitVec.getLsbD_and, BitVec.getLsbD_not, BitVec.getLsbD_shiftLeft,
    widthMask_getLsbD _ _ hb, hk]
  by_cases h1 : 8 * (off % 8) ≤ k
  · by_cases h2 : k < 8 * (off % 8 + bytes)
    · simp [h1, h2, show ¬ k < 8 * (off % 8) by omega, show k - 8 * (off % 8) < 8 * bytes by omega]
    · simp [h2, show ¬ k - 8 * (off % 8) < 8 * bytes by omega]
  · simp [h1, show k < 8 * (off % 8) by omega]

theorem bitAt_getLsbD (i k : Nat) (b : Bool) (hi : i < 64) : (bitAt i b).getLsbD k = (decide (k = i) && b) := by
  cases b <;> simp only [bitAt, Bool.false_eq_true, if_false, if_true, Bool.and_false, Bool.and_true]
  · simp
  · by_cases h : k < 64
    · simp only [BitVec.getLsbD_shiftLeft, h, decide_true, Bool.true_and, BitVec.getLsbD_one]
      by_cases h2 : k = i
      · subst h2; simp
      · simp [h2]; omega
    · rw [BitVec.getLsbD_of_ge _ _ (by omega)]; simp; omega

/-- R20: STATUS, bit by bit. -/
theorem State.statusWord_getLsbD (s : State) (k : Nat) : s.statusWord.getLsbD k =
    ((decide (k = 0) && s.busy) || (decide (k = 1) && s.status.done) || (decide (k = 2) && s.status.err) || (decide (k = 3) && s.status.flag) ||
      (decide (k = 4) && s.status.oor) || (decide (k = 5) && s.status.trunc) || (decide (k = 6) && s.status.cmdOvr) ||
      (decide (8 ≤ k) && s.status.errcode.code.getLsbD (k - 8)) || (decide (16 ≤ k) && s.status.lastop.getLsbD (k - 16))) := by
  simp only [State.statusWord, BitVec.getLsbD_or, bitAt_getLsbD _ _ _ (show 0 < 64 by omega), bitAt_getLsbD _ _ _ (show 1 < 64 by omega),
    bitAt_getLsbD _ _ _ (show 2 < 64 by omega), bitAt_getLsbD _ _ _ (show 3 < 64 by omega), bitAt_getLsbD _ _ _ (show 4 < 64 by omega),
    bitAt_getLsbD _ _ _ (show 5 < 64 by omega), bitAt_getLsbD _ _ _ (show 6 < 64 by omega), BitVec.getLsbD_shiftLeft, BitVec.getLsbD_setWidth]
  by_cases hk : k < 64
  · simp only [hk, decide_true, Bool.true_and, show k - 8 < 64 by omega, show k - 16 < 64 by omega]
    by_cases h8 : k < 8 <;> by_cases h16 : k < 16 <;> simp [h8, h16, show (8 ≤ k) = ¬ (k < 8) by simp, show (16 ≤ k) = ¬ (k < 16) by simp]
  · have e1 : s.status.errcode.code.getLsbD (k - 8) = false := BitVec.getLsbD_of_ge _ _ (by omega)
    have e2 : s.status.lastop.getLsbD (k - 16) = false := BitVec.getLsbD_of_ge _ _ (by omega)
    simp [hk, e1, e2]

/-- R19: CTRL, bit by bit. -/
theorem State.ctrlWord_getLsbD (s : State) (k : Nat) :
    s.ctrlWord.getLsbD k = ((decide (k = 8) && s.ctrl.entSrc) || (decide (k = 9) && s.ctrl.irqEn)) := by
  simp only [State.ctrlWord, BitVec.getLsbD_or, bitAt_getLsbD _ _ _ (show 8 < 64 by omega), bitAt_getLsbD _ _ _ (show 9 < 64 by omega)]

/-- R43: an aligned 8-byte read answers the register's readable value. -/
theorem State.memRead_whole (s : State) (off : Nat) (h : off % 8 = 0) : s.memRead off 8 = ⟨false, s.windowWord off⟩ := by
  have ha : accessAdmitted off 8 = true := (accessAdmitted_iff off 8).2 (.inr ⟨rfl, h⟩)
  simp [State.memRead, ha, readLanes_whole _ off h]

/-- R20: STATUS reads 0 when no field is set and the sequencer is IDLE. -/
theorem State.statusWord_reset (s : State) (h : s.status = State.reset.status) (hs : s.seq = .idle) : s.statusWord = 0#64 := by
  simp only [State.statusWord, h, s.busy_idle hs]
  decide

/-- R114: a hard reset leaves every register at its reset value. -/
theorem State.hardReset_atReset (s : State) : AtReset s.hardReset :=
  ⟨State.memRead_whole _ 0x00 rfl, by simp [State.ctrlWord, State.reset, bitAt], State.statusWord_reset _ rfl rfl, rfl, rfl, rfl, rfl, rfl, rfl, rfl, rfl, rfl, rfl, rfl, rfl⟩

end Sys2Proof.Machine
end

