-- ==== Sys2Proof/Laws/HostNotation.lean ====
section
/-! SUPPORT. What a statement of a host program does (30_encoding.md rules R61, R62): its access lies in the window and is never a bus error. And runs of
host programs in a form that can be evaluated, whatever the base address. -/

namespace Sys2Proof.Machine

open Sys2Proof

/-- R16: a register's offset is a multiple of 8 in the window. -/
theorem Reg.offset_window (r : Reg) : r.offset % 8 = 0 ∧ r.offset < 0x70 := by cases r <;> decide

theorem RegHalf.offset_window (half : RegHalf) : half.offset % 4 = 0 ∧ half.offset < 8 := by cases half <;> decide

/-- While `rst` is released an admitted read is a turn that goes on. -/
theorem State.turn_read (s : State) (off bytes : Nat) (hr : s.rst = false) (ho : off < 0x100) (ha : accessAdmitted off bytes = true) :
    s.turn (.host (.read (Config.rsacoreBase + off) bytes)) = .next (s.afterRead off bytes) := by
  simp [State.turn, hr, State.liveTurn, State.hostAccess_read s off bytes ho, ha]

/-- While `rst` is released an admitted write is a turn that goes on. -/
theorem State.turn_write (s : State) (off bytes : Nat) (v : Word) (hr : s.rst = false) (ho : off < 0x100) (ha : accessAdmitted off bytes = true) :
    s.turn (.host (.write (Config.rsacoreBase + off) bytes v)) = .next (s.memWrite off bytes v) := by
  simp [State.turn, hr, State.liveTurn, State.hostAccess_write s off bytes v ho, ha]

/-- What the access of the next statement leaves of RSACORE while `rst` is released; none for a control statement. -/
def HostProgram.effect (h : HostProgram) (s : State) : Option State :=
  match h.stmts[h.pc]? with
  | some (.wr r e) => some (s.memWrite r.offset 8 (h.eval e))
  | some (.wr32 r half e) => some (s.memWrite (r.offset + half.offset) 4 (h.eval e))
  | some (.rd r _) => some (s.afterRead r.offset 8)
  | some (.rd32 r half _) => some (s.afterRead (r.offset + half.offset) 4)
  | some (.expect _ _) => none
  | some (.label _) => none
  | some (.bnz _ _ _) => none
  | some (.bz _ _ _) => none
  | some (.jump _) => none
  | some (.set _ _) => none
  | some .halt => none
  | none => none

/-- Everything a statement of a running host program can do while `rst` is released: it goes on, with its effect and the data of its read. -/
theorem HostProgram.turn_live (h : HostProgram) (s : State) (hh : h.halted = false) (hr : s.rst = false) :
    h.turn s = match h.effect s with
      | some t => .next (h.afterStmt t.busData, t)
      | none => .next (h.afterStmt 0#64, s) := by
  have w8 (r : Reg) : r.offset < 0x100 ∧ accessAdmitted r.offset 8 = true := by
    have := r.offset_window
    exact ⟨by omega, (accessAdmitted_iff _ _).2 (.inr ⟨rfl, this.1⟩)⟩
  have w4 (r : Reg) (half : RegHalf) : r.offset + half.offset < 0x100 ∧ accessAdmitted (r.offset + half.offset) 4 = true := by
    have := r.offset_window
    have := half.offset_window
    exact ⟨by omega, (accessAdmitted_iff _ _).2 (.inl ⟨rfl, by omega⟩)⟩
  unfold HostProgram.turn HostProgram.nextAccess HostProgram.effect
  rw [hh]
  cases h.stmts[h.pc]? with
  | none => rfl
  | some st =>
    cases st with
    | wr r e => simp [s.turn_write _ _ _ hr (w8 r).1 (w8 r).2]
    | wr32 r half e => simp [s.turn_write _ _ _ hr (w4 r half).1 (w4 r half).2]
    | rd r x => simp [s.turn_read _ _ hr (w8 r).1 (w8 r).2]
    | rd32 r half x => simp [s.turn_read _ _ hr (w4 r half).1 (w4 r half).2]
    | expect x e => rfl
    | label l => rfl
    | bnz x mask l => rfl
    | bz x mask l => rfl
    | jump l => rfl
    | set x e => rfl
    | halt => rfl

/-- `HostProgram.move` without the base address where `rst` is released. -/
def HostProgram.moveEval (h : HostProgram) (s : State) (m : RunMove) : Host.Outcome (HostProgram × State) Fault Refusal :=
  match m with
  | .statement =>
    if s.rst || h.halted then h.move s .statement
    else match h.effect s with
      | some t => .next (h.afterStmt t.busData, t)
      | none => .next (h.afterStmt 0#64, s)
  | .sequencer => h.move s .sequencer
  | .entropy w => h.move s (.entropy w)
  | .reset asserted => h.move s (.reset asserted)

theorem HostProgram.move_eval (h : HostProgram) (s : State) (m : RunMove) : h.move s m = h.moveEval s m := by
  cases m with
  | statement =>
    cases hr : s.rst with
    | true => simp [HostProgram.moveEval, hr]
    | false =>
      cases hh : h.halted with
      | true => simp [HostProgram.moveEval, hh]
      | false =>
        simp only [HostProgram.moveEval, hr, hh, Bool.or_self, Bool.false_eq_true, if_false]
        exact h.turn_live s hh hr
  | sequencer => rfl
  | entropy w => rfl
  | reset asserted => rfl

/-- `HostProgram.run` without the base address where `rst` is released. -/
def HostProgram.runEval (h : HostProgram) (s : State) : List RunMove → HostRun
  | [] => ⟨[], .next (h, s)⟩
  | m :: moves =>
    match h.moveEval s m with
    | .next (h', s') => ⟨h.moveLines m ++ (h'.runEval s' moves).lines, (h'.runEval s' moves).outcome⟩
    | .fault r => ⟨h.moveLines m, .fault r⟩
    | .refused r => ⟨h.moveLines m, .refused r⟩

theorem HostProgram.run_eval (h : HostProgram) (s : State) (moves : List RunMove) : h.run s moves = h.runEval s moves := by
  induction moves generalizing h s with
  | nil => rfl
  | cons m moves ih =>
    cases e : h.moveEval s m <;> simp only [HostProgram.run, HostProgram.runEval, HostProgram.move_eval, e, ih]

@[simp] theorem HostProgram.run_nil (h : HostProgram) (s : State) : h.run s [] = ⟨[], .next (h, s)⟩ := rfl

/-- A move that goes on, and the run after it. -/
theorem HostProgram.run_cons (h h' : HostProgram) (s s' : State) (m : RunMove) (moves : List RunMove) (hm : h.move s m = .next (h', s')) :
    h.run s (m :: moves) = ⟨h.moveLines m ++ (h'.run s' moves).lines, (h'.run s' moves).outcome⟩ := by
  simp only [HostProgram.run, hm]

end Sys2Proof.Machine
end

