-- ==== Sys2Proof/Laws/PerInstr.lean ====
section
/-! SUPPORT. What holds of every instruction as syntax, one lemma per constructor (30_encoding.md rules R57, R59). -/

namespace Sys2Proof.Laws.EncodingLegality

open Sys2Proof

/-- A well-formed instruction's word decodes to it, and is a legal word exactly for the nine commands of R57. -/
def Statement (i : Instr) : Prop :=
  i.wellFormed = true → decodeWord (encode i) = i ∧ (wordIllegal (encode i) = true ↔ ∃ w, i = .illegal w)

theorem nop : Statement .nop := fun _ => ⟨rfl, by simp [encode]; decide⟩
theorem modmul : Statement .modmul := fun _ => ⟨rfl, by simp [encode]; decide⟩
theorem modexp : Statement .modexp := fun _ => ⟨rfl, by simp [encode]; decide⟩
theorem modinv : Statement .modinv := fun _ => ⟨rfl, by simp [encode]; decide⟩
theorem primetest : Statement .primetest := fun _ => ⟨rfl, by simp [encode]; decide⟩
theorem primegen : Statement .primegen := fun _ => ⟨rfl, by simp [encode]; decide⟩
theorem keygen : Statement .keygen := fun _ => ⟨rfl, by simp [encode]; decide⟩
theorem encrypt : Statement .encrypt := fun _ => ⟨rfl, by simp [encode]; decide⟩
theorem decrypt : Statement .decrypt := fun _ => ⟨rfl, by simp [encode]; decide⟩
theorem illegal (w : Word32) : Statement (.illegal w) := fun h =>
  ⟨if_pos h, fun _ => ⟨w, rfl⟩, fun _ => h⟩

end Sys2Proof.Laws.EncodingLegality
end

