-- ==== Sys2Proof/Laws/Schedule.lean ====
section
/-! SUPPORT. The turns still to come change nothing but the inbox: every operation is the same whatever the inbox holds (20_memory.md rule R48). And
runs that grow at their end. -/

namespace Sys2Proof.Machine

open Sys2Proof

/-- The same state with another inbox. -/
def State.withInbox (s : State) (x : List Turn) : State := { s with inbox := x }

@[simp] theorem State.withInbox_seq (s : State) (x : List Turn) : (s.withInbox x).seq = s.seq := rfl
@[simp] theorem State.withInbox_rst (s : State) (x : List Turn) : (s.withInbox x).rst = s.rst := rfl
@[simp] theorem State.withInbox_inbox (s : State) (x : List Turn) : (s.withInbox x).inbox = x := rfl
@[simp] theorem State.withInbox_twice (s : State) (x y : List Turn) : (s.withInbox x).withInbox y = s.withInbox y := rfl

/-- The same outcome with another inbox. -/
def outcomeWithInbox (x : List Turn) : Host.Outcome State Fault Refusal → Host.Outcome State Fault Refusal
  | .next s => .next (s.withInbox x)
  | .fault r => .fault r
  | .refused r => .refused r

theorem State.draw_withInbox (s : State) (run : Run) (x : List Turn) : (s.withInbox x).draw run = (s.draw run).withInbox x := by
  unfold State.draw
  split
  · rfl
  · split
    · rfl
    · split <;> rfl

theorem State.proceed_withInbox (s : State) (run : Run) (res : ProcResult) (x : List Turn) :
    (s.withInbox x).proceed run res = (s.proceed run res).withInbox x := by
  cases res with
  | done => rfl
  | need => exact s.draw_withInbox run x

theorem exec_withInbox (i : Instr) (s : State) (x : List Turn) : exec i (s.withInbox x) = outcomeWithInbox x (exec i s) := by
  cases hb : s.busy with
  | false =>
    have hs := s.not_busy_iff.1 hb
    rw [exec_idle i s hs, exec_idle i (s.withInbox x) hs]
    rfl
  | true =>
    obtain ⟨run, hs⟩ := s.busy_iff.1 hb
    have hx : (s.withInbox x).seq = .running run := hs
    cases i <;>
      simp only [exec, execNop, execModmul, execModexp, execModinv, execPrimetest, execPrimegen, execKeygen, execEncrypt, execDecrypt, execIllegal,
        State.onRun_running _ run _ hs, State.onRun_running _ run _ hx, State.proceed_withInbox, outcomeWithInbox] <;>
      repeat' split
    all_goals rfl

theorem State.abort_withInbox (s : State) (x : List Turn) : (s.withInbox x).abort = s.abort.withInbox x := by
  unfold State.abort State.onRun
  rw [State.withInbox_seq]
  cases s.seq <;> rfl

theorem State.memWrite_withInbox (s : State) (off bytes : Nat) (v : Word) (x : List Turn) :
    (s.withInbox x).memWrite off bytes v = (s.memWrite off bytes v).withInbox x := by
  have hb : (s.withInbox x).busy = s.busy := rfl
  unfold State.memWrite
  split
  · cases regAt off with
    | none => rfl
    | some r =>
      cases r <;> simp only [State.writeReg, hb, State.deliverCmd, State.writeCtrl]
      case cmd => cases presentsLow off <;> cases s.busy <;> rfl
      case status => cases presentsLow off <;> rfl
      case seed => cases s.busy <;> rfl
      case ctrl =>
        cases presentsLow off <;> cases v.getLsbD 1 <;> cases v.getLsbD 0 <;> first | rfl | exact (s.setCtrl v).abort_withInbox x
      all_goals rfl
  · rfl

theorem State.hostAccess_withInbox (s : State) (access : BusAccess) (x : List Turn) :
    (s.withInbox x).hostAccess access = outcomeWithInbox x (s.hostAccess access) := by
  unfold State.hostAccess
  cases windowOffset access.addr with
  | none => rfl
  | some off =>
    cases access <;> simp only [State.accessAt, State.memWrite_withInbox] <;> split <;> rfl

/-- A turn does the same whatever turns come after it. -/
theorem State.turn_withInbox (s : State) (turn : Turn) (x : List Turn) : (s.withInbox x).turn turn = outcomeWithInbox x (s.turn turn) := by
  unfold State.turn
  rw [State.withInbox_rst]
  split
  · cases turn with
    | host access =>
      have : (s.withInbox x).hardReset.hostAccess access = outcomeWithInbox x (s.hardReset.hostAccess access) :=
        s.hardReset.hostAccess_withInbox access x
      rw [State.resetTurn, State.resetTurn, this]
      cases s.hardReset.hostAccess access <;> rfl
    | sequencer => rfl
    | entropy w => rfl
    | reset asserted => rfl
  · cases turn with
    | host access => exact s.hostAccess_withInbox access x
    | sequencer =>
      simp only [State.liveTurn, State.sequencerTurn, State.withInbox_seq]
      cases s.seq with
      | idle => rfl
      | running run => exact exec_withInbox run.op.op s x
    | entropy w =>
      simp only [State.liveTurn, State.entropyTurn, State.withInbox_seq]
      cases s.seq with
      | idle => rfl
      | running run =>
        cases hq : run.request with
        | false => simp only [hq]; rfl
        | true =>
          simp only [hq]
          exact exec_withInbox run.op.op { s with seq := .running { run with request := false, port := some w } } x
    | reset asserted => cases asserted <;> rfl

/-- A step takes the first turn of the inbox and leaves the others there. -/
theorem step_withInbox (s : State) (turn : Turn) (rest : List Turn) :
    step (s.withInbox (turn :: rest)) = outcomeWithInbox rest (s.turn turn) := by
  rw [step_cons _ turn rest rfl]
  exact s.turn_withInbox turn rest

/-- A run of one step is a step. -/
theorem core_run_one (s : State) : core.run 1 s = step s := by
  cases h : step s with
  | next t => exact (core_run_succ 0 s t h).trans (core_run_zero t)
  | fault r => exact host_run_fault core 0 s r h
  | refused r => exact host_run_refused core 0 s r h

/-- A run that goes on, and one step more. -/
theorem core_run_snoc (k : Nat) (s t : State) (h : core.run k s = .next t) : core.run (k + 1) s = step t := by
  induction k generalizing s with
  | zero =>
    rw [core_run_zero] at h
    injection h with h
    rw [← h]
    exact core_run_one s
  | succ k ih =>
    cases e : step s with
    | next u =>
      rw [core_run_succ k s u e] at h
      rw [core_run_succ (k + 1) s u e]
      exact ih u h
    | fault r => rw [host_run_fault core k s r e] at h; cases h
    | refused r => rw [host_run_refused core k s r e] at h; cases h

/-- A run that a fault stopped stays so. -/
theorem core_run_fault (k : Nat) (s : State) (r : Fault) (h : core.run k s = .fault r) : core.run (k + 1) s = .fault r := by
  induction k generalizing s with
  | zero => rw [core_run_zero] at h; cases h
  | succ k ih =>
    cases e : step s with
    | next u => rw [core_run_succ k s u e] at h; rw [core_run_succ (k + 1) s u e]; exact ih u h
    | fault r' => rw [host_run_fault core k s r' e] at h; rw [host_run_fault core (k + 1) s r' e]
    | refused r' => rw [host_run_refused core k s r' e] at h; cases h

/-- A run that a refusal stopped stays so. -/
theorem core_run_refused (k : Nat) (s : State) (r : Refusal) (h : core.run k s = .refused r) : core.run (k + 1) s = .refused r := by
  induction k generalizing s with
  | zero => rw [core_run_zero] at h; cases h
  | succ k ih =>
    cases e : step s with
    | next u => rw [core_run_succ k s u e] at h; rw [core_run_succ (k + 1) s u e]; exact ih u h
    | fault r' => rw [host_run_fault core k s r' e] at h; cases h
    | refused r' => rw [host_run_refused core k s r' e] at h; rw [host_run_refused core (k + 1) s r' e]; exact h

theorem Schedule.run_zero (sched : Schedule) (s : State) : sched.run s 0 = .next s := rfl

/-- A scheduled run that goes on, and one turn more. -/
theorem Schedule.run_succ (sched : Schedule) (s t : State) (n : Nat) (h : sched.run s n = .next t) :
    sched.run s (n + 1) = outcomeWithInbox [] (t.turn (sched n)) := by
  simp only [Schedule.run, h]
  exact step_withInbox t (sched n) []

/-- Only a host access can fault or be refused: every other turn goes on. -/
theorem State.turn_next (s : State) (turn : Turn) (h : ∀ access, turn ≠ .host access) : ∃ t, s.turn turn = .next t := by
  unfold State.turn
  split
  · cases turn with
    | host access => exact absurd rfl (h access)
    | sequencer => exact ⟨_, rfl⟩
    | entropy w => exact ⟨_, rfl⟩
    | reset asserted => exact ⟨_, rfl⟩
  · cases turn with
    | host access => exact absurd rfl (h access)
    | sequencer =>
      simp only [State.liveTurn, State.sequencerTurn]
      split
      · exact ⟨_, rfl⟩
      · exact exec_next _ _
    | entropy w =>
      simp only [State.liveTurn, State.entropyTurn]
      split
      · exact ⟨_, rfl⟩
      · split
        · exact exec_next _ _
        · exact ⟨_, rfl⟩
    | reset asserted => exact ⟨_, rfl⟩

/-- So a schedule without host accesses goes on. -/
theorem Schedule.goesOn_of_no_host (sched : Schedule) (s : State) (h : ∀ n access, sched n ≠ .host access) : sched.GoesOn s := by
  intro n
  induction n with
  | zero => exact ⟨s, rfl⟩
  | succ n ih =>
    obtain ⟨t, ht⟩ := ih
    obtain ⟨u, hu⟩ := t.turn_next (sched n) (h n)
    exact ⟨u.withInbox [], by rw [sched.run_succ s t n ht, hu]; rfl⟩

theorem Schedule.turns_succ (sched : Schedule) (n : Nat) : sched.turns (n + 1) = sched.turns n ++ [sched n] := by
  simp [Schedule.turns, List.range_succ]

theorem seedAfter_snoc (k : Nat) (seed : Word) : seedAfter (k + 1) seed = (splitmixNext (seedAfter k seed)).1 :=
  Function.iterate_succ_apply' (fun x => (splitmixNext x).1) k seed

theorem seedWords_snoc (k : Nat) (seed : Word) : seedWords (k + 1) seed = seedWords k seed ++ [(splitmixNext (seedAfter k seed)).2] := by
  induction k generalizing seed with
  | zero => rw [seedWords_succ, seedWords_zero, seedWords_zero, seedAfter_zero]; rfl
  | succ k ih => rw [seedWords_succ, ih, seedWords_succ k seed, seedAfter_succ, List.cons_append]

end Sys2Proof.Machine
end

