-- ==== Sys2Proof/Tests/Slice0.lean ====
section
/-! SUPPORT. The model's own tests. Expected values come from spec/95_test_vectors.md (the table is named at each test) and from the encodings of
spec/30_encoding.md; then one witness for each statement that has hypotheses. -/

namespace Sys2Proof.Tests

-- One test at a time: as tasks, tests that ask the kernel wait for each other, each with a thread stack of its own, and memory runs out.
set_option Elab.async false

open Sys2Proof Sys2Proof.Machine

/-! ### Helpers -/

/-- The next state of an outcome, if it is one. -/
def nextOf : Host.Outcome State Fault Refusal → Option State
  | .next s => some s
  | .fault _ => none
  | .refused _ => none

/-- The reset state with operands. -/
def operands (a b m c : Word) : State := { State.reset with a := a, b := b, m := m, c := c }

/-- The state after one step that starts the command word `w` in `s` and runs its first sequencer step. -/
def firstStep (s : State) (w : Nat) : Option State := nextOf (step (s.withFetchWord 32 w))

/-- A running command with words drawn. -/
def running (i : Instr) (a b m c limit : Word) (src : Bool) (words : List Word32) : State :=
  { State.reset with
    ctrl := ⟨src, false⟩
    status := State.reset.status.started ((encode i).extractLsb' 0 4)
    seq := .running (Run.after ⟨i, a, b, m, c, limit, src⟩ words) }

/-- The run of `running`. -/
def runOf (i : Instr) (a b m c limit : Word) (src : Bool) (words : List Word32) : Run := Run.after ⟨i, a, b, m, c, limit, src⟩ words

/-- STATUS and the results. -/
def outputs (s : State) : Word × Word × Word × Word := (s.statusWord, s.r0, s.r1, s.r2)

/-! ### Well-formedness: an ill-formed term for the one check there is (R59) -/

theorem test_illegal_term_of_legal_word_refused : (Instr.illegal 0x1#32).wellFormed = false := by decide
theorem test_illegal_term_of_last_legal_word_refused : (Instr.illegal 0x8#32).wellFormed = false := by decide
theorem test_illegal_term_of_reserved_opcode_accepted : (Instr.illegal 0x9#32).wellFormed = true := by decide
theorem test_illegal_term_of_high_bit_accepted : (Instr.illegal 0x10#32).wellFormed = true := by decide

/-! ### Decoding: words written out from R54 and R57, as the bytes a little-endian CMD write carries (R41) -/

theorem test_decode_nop : decodeBytes [0b00000000#8, 0#8, 0#8, 0#8] = .ok (.nop, []) := by rfl
theorem test_decode_modmul : decodeBytes [0b00000001#8, 0#8, 0#8, 0#8] = .ok (.modmul, []) := by rfl
theorem test_decode_modexp : decodeBytes [0b00000010#8, 0#8, 0#8, 0#8] = .ok (.modexp, []) := by rfl
theorem test_decode_modinv : decodeBytes [0b00000011#8, 0#8, 0#8, 0#8] = .ok (.modinv, []) := by rfl
theorem test_decode_primetest : decodeBytes [0b00000100#8, 0#8, 0#8, 0#8] = .ok (.primetest, []) := by rfl
theorem test_decode_primegen : decodeBytes [0b00000101#8, 0#8, 0#8, 0#8] = .ok (.primegen, []) := by rfl
theorem test_decode_keygen : decodeBytes [0b00000110#8, 0#8, 0#8, 0#8] = .ok (.keygen, []) := by rfl
theorem test_decode_encrypt : decodeBytes [0b00000111#8, 0#8, 0#8, 0#8] = .ok (.encrypt, []) := by rfl
theorem test_decode_decrypt : decodeBytes [0b00001000#8, 0#8, 0#8, 0#8] = .ok (.decrypt, []) := by rfl
theorem test_decode_reserved_opcode : decodeBytes [0b00001001#8, 0#8, 0#8, 0#8] = .ok (.illegal 0x9#32, []) := by rfl
theorem test_decode_reserved_bits : decodeBytes [0b00000001#8, 0#8, 0#8, 0b10000000#8] = .ok (.illegal 0x80000001#32, []) := by rfl
theorem test_decode_truncated : decodeBytes [1#8, 0#8, 0#8] = .error .truncated := by rfl
theorem test_decode_table_word : decodeTableWord 32 0x8 = some .decrypt := by decide +kernel

/-! ### One step of each command, from spec/95_test_vectors.md -/

/-- 2.1: NOP after `R0 = 6`. -/
theorem test_nop_keeps_results : (firstStep { State.reset with r0 := 6#64 } 0x0).map outputs = some (0x2#64, 6#64, 0#64, 0#64) := by decide +kernel

/-- 2.1: NOP with IRQ_EN. -/
theorem test_nop_raises_irq : (firstStep { State.reset with ctrl := ⟨false, true⟩ } 0x0).map State.irq = some true := by decide +kernel

/-- 2.1: `CMDW 0x11`. -/
theorem test_illegal_word : (firstStep { State.reset with r0 := 6#64 } 0x11).map outputs = some (0x10106#64, 0#64, 0#64, 0#64) := by decide +kernel

/-- 2.1: `CMDW 0xFFFFFFFF`. -/
theorem test_illegal_all_ones : (firstStep State.reset 0xFFFFFFFF).map State.statusWord = some 0xF0106#64 := by decide +kernel

/-- 2.2: the product of the largest operands modulo 2^64 - 2. -/
theorem test_modmul_largest : (firstStep (operands 0xFFFFFFFFFFFFFFFF#64 0xFFFFFFFFFFFFFFFF#64 0xFFFFFFFFFFFFFFFE#64 0#64) 0x1).map outputs
    = some (0x10002#64, 1#64, 0#64, 0#64) := by decide +kernel

/-- 2.2: BAD_MODULUS. -/
theorem test_modmul_bad_modulus : (firstStep (operands 5#64 5#64 0#64 0#64) 0x1).map outputs = some (0x10206#64, 0#64, 0#64, 0#64) := by decide +kernel

/-- 2.3: a 64-bit exponent. -/
theorem test_modexp_largest_exponent : (firstStep (operands 2#64 0xFFFFFFFFFFFFFFFF#64 0xFFFFFFFFFFFFFFFF#64 0#64) 0x2).map outputs
    = some (0x20002#64, 0x8000000000000000#64, 0#64, 0#64) := by decide +kernel

/-- 2.3: modulus 1 with exponent 0. -/
theorem test_modexp_modulus_one : (firstStep (operands 5#64 0#64 1#64 0#64) 0x2).map outputs = some (0x20002#64, 0#64, 0#64, 0#64) := by decide +kernel

/-- 2.4: the private exponent of the source's scenario. -/
theorem test_modinv_private_exponent : (firstStep (operands 0x10001#64 0#64 0x7CE66C6CD312B18C#64 0#64) 0x3).map outputs
    = some (0x3000A#64, 0x5EEA105D46AD7F05#64, 1#64, 0#64) := by decide +kernel

/-- 2.4: no inverse; the gcd in R1. -/
theorem test_modinv_none : (firstStep (operands 6#64 0#64 9#64 0#64) 0x3).map outputs = some (0x30002#64, 0#64, 3#64, 0#64) := by decide +kernel

/-- 2.5: the even prime. -/
theorem test_primetest_two : (firstStep (operands 2#64 0#64 0#64 0#64) 0x4).map outputs = some (0x4000A#64, 1#64, 0#64, 0#64) := by decide +kernel

/-- 2.5: a strong pseudoprime to bases 2, 3 and 5. -/
theorem test_primetest_pseudoprime : (firstStep (operands 0x18271B1#64 0#64 0#64 0#64) 0x4).map outputs
    = some (0x40002#64, 0#64, 0#64, 0#64) := by decide +kernel

/-- 2.6: the first draw of the internal generator from SEED = 0. -/
theorem test_primegen_first_draw : (firstStep { State.reset with ctrl := ⟨true, false⟩ } 0x5).map (fun t => (t.seed, t.seq, t.statusWord))
    = some (0x9E3779B97F4A7C15#64, .running (runOf .primegen 0#64 0#64 0#64 0#64 0#64 true [0x7B1DCDAF#32]), 0x50001#64) := by decide +kernel

/-- 2.6: RETRY_EXHAUSTED after two external words. -/
theorem test_primegen_exhausted : (nextOf (exec .primegen (running .primegen 0#64 0#64 0#64 0#64 2#64 false [0#32, 0#32]))).map
    (fun t => (t.statusWord, t.attempts)) = some (0x50606#64, 2#64) := by decide +kernel

/-- 2.7: the pair of the last row restarts: 65537 divides `p - 1`. -/
theorem exponent_not_invertible_of_restart_pair : exponentInvertible 0x80128013 0x8000000B = false := by decide +kernel

/-- 2.8: 42 encrypted. -/
theorem test_encrypt_42 : (firstStep (operands 42#64 0#64 0x7CE66C78001892BF#64 0#64) 0x7).map outputs
    = some (0x70002#64, 0x764F66BADC0B68D1#64, 0#64, 0#64) := by decide +kernel

/-- 2.8: a message not below the modulus. -/
theorem test_encrypt_out_of_range : (firstStep (operands 0x2A#64 0#64 0x6#64 0#64) 0x7).map outputs = some (0x70012#64, 0#64, 0#64, 0#64) := by decide +kernel

/-- 2.8: a recovered value of more than 32 bits. -/
theorem test_decrypt_truncates : (firstStep (operands 0xB2D05E13#64 0xB2D05E25#64 0#64 0x3039#64) 0x8).map outputs
    = some (0x80022#64, 0x91B021A2#64, 0x40E9E0CE91B021A2#64, 0#64) := by decide +kernel

/-- 2.8: no private exponent. -/
theorem test_decrypt_no_private_exponent : (firstStep (operands 0x80128013#64 0x8000000B#64 0#64 5#64) 0x8).map outputs
    = some (0x80506#64, 0#64, 0#64, 0#64) := by decide +kernel

/-! ### The window, from table 2.9 -/

theorem test_id_high_half : State.reset.memRead 0x04 4 = ⟨false, 1#64⟩ := by decide +kernel
theorem test_write_high_half : (State.reset.memWrite 0x34 4 0xDEAD#64).a = 0x0000DEAD00000000#64 := by decide +kernel
theorem test_misaligned_read : State.reset.memRead 0x34 8 = ⟨true, 0#64⟩ := by decide +kernel
theorem test_soft_reset_keeps_written_fields : ({ State.reset with a := 5#64 }.memWrite 0x10 4 0x303#64).ctrlWord = 0x300#64 := by decide +kernel
theorem test_wide_cmd_write_ignores_high_bits :
    (State.reset.memWrite 0x08 8 0xFFFFFFFF00000001#64).seq = .running (runOf .modmul 0#64 0#64 0#64 0#64 0#64 false []) := by decide +kernel
theorem test_abort_of_running_command : ((running .primegen 0#64 0#64 0#64 0#64 0#64 false []).memWrite 0x10 4 1#64).statusWord = 0x50706#64 := by
  decide +kernel

/-! ### The host notation -/

/-- 3, P1: the second line of the encoding. -/
theorem test_line_text : (BusLine.w4 0x3C 0xFFFFFFFF#32).text = "W4 +3C 0xffffffff" := by decide +kernel

/-- 3, P1: the fifth line of the encoding. -/
theorem test_cmd_line : (HostProgram.mk (PseudoStmt.cmd .modmul).expand 0 [] false false).nextLine = some (.w4 0x08 1#32) := by decide +kernel

/-- A program at its start. -/
def started (stmts : List HostStmt) : HostProgram := ⟨stmts, 0, [], false, false⟩

/-- 3, P1: the text of the encoding's first lines. -/
theorem test_encoding_text : (started ([.wr .a (.lit 0xFFFFFFFFFFFFFFFF#64), .wr32 .b .lo (.lit 0xFFFFFFFF#64)] ++ (PseudoStmt.cmd .modmul).expand)).encoding
    State.reset [.statement, .statement, .statement] = ["W8 +30 0xffffffffffffffff", "W4 +38 0xffffffff", "W4 +08 0x1"] := by
  rw [HostProgram.encoding, HostProgram.run_eval]
  decide +kernel

/-- Section 3: when the sequencer is slower, WAIT repeats its line. -/
theorem test_slow_wait : ((started ((PseudoStmt.cmd .modmul).expand ++ (PseudoStmt.wait "w").expand)).run State.reset
    (List.replicate 7 .statement ++ [.sequencer] ++ List.replicate 3 .statement)).lines = [.w4 0x08 1#32, .r8 0x18, .r8 0x18, .r8 0x18] := by
  rw [HostProgram.run_eval]
  decide +kernel

/-! ### Witnesses: states and operands that meet the hypotheses of each statement -/

theorem witness_OpcodeSelectsCommand : 9 ≤ (9#4).toNat ∧ 9 ≤ (15#4).toNat := by decide

theorem witness_DecodeOfEncode : Instr.decrypt.wellFormed = true ∧ (Instr.illegal 0x9#32).wellFormed = true ∧
    (Instr.illegal 0x10#32).wellFormed = true := by decide

theorem witness_EncodeOfDecode : ¬ ((0x8#32).toNat / 16 ≠ 0 ∨ 9 ≤ (0x8#32).toNat % 16) ∧ 9 ≤ (0x9#32).toNat % 16 ∧ (0x10#32).toNat / 16 ≠ 0 := by decide

theorem witness_CmdWriteIssuesCommand : ∃ s : State, s.rst = false ∧ s.busy = false ∧
    s.inbox = .host (.write (Config.rsacoreBase + 0x08) 4 1#64) :: [] :=
  ⟨{ State.reset with inbox := [.host (.write (Config.rsacoreBase + 0x08) 4 1#64)] }, rfl, rfl, rfl⟩

theorem witness_CmdWriteWhileBusyDropped : ∃ s : State, s.rst = false ∧ s.busy = true ∧
    s.inbox = .host (.write (Config.rsacoreBase + 0x08) 8 1#64) :: [] :=
  ⟨{ running .primegen 0#64 0#64 0#64 0#64 0#64 false [] with inbox := [.host (.write (Config.rsacoreBase + 0x08) 8 1#64)] }, rfl, rfl, rfl⟩

theorem witness_StepRunsDecodedCommand_turn : ∃ s : State, s.rst = false ∧ s.seq = .running (runOf .nop 0#64 0#64 0#64 0#64 0#64 false []) ∧
    s.inbox = .sequencer :: [] :=
  ⟨{ running .nop 0#64 0#64 0#64 0#64 0#64 false [] with inbox := [.sequencer] }, rfl, rfl, rfl⟩

theorem witness_StepRunsDecodedCommand_issue : State.reset.rst = false ∧ State.reset.busy = false ∧ State.reset.inbox = [] := ⟨rfl, rfl, rfl⟩

theorem witness_DeliveryRunsDrawStep_request : ∃ s : State, s.rst = false ∧ s.seq = .running (runOf .primegen 0#64 0#64 0#64 0#64 0#64 false []) ∧
    s.inbox = .entropy 0xA#32 :: [] ∧ (runOf .primegen 0#64 0#64 0#64 0#64 0#64 false []).request = true :=
  ⟨{ running .primegen 0#64 0#64 0#64 0#64 0#64 false [] with inbox := [.entropy 0xA#32] }, rfl, rfl, rfl, by decide⟩

theorem witness_DeliveryRunsDrawStep_no_request : ∃ s : State, s.rst = false ∧ s.seq = .running (runOf .primegen 0#64 0#64 0#64 0#64 0#64 true []) ∧
    s.inbox = .entropy 0xA#32 :: [] ∧ (runOf .primegen 0#64 0#64 0#64 0#64 0#64 true []).request = false :=
  ⟨{ running .primegen 0#64 0#64 0#64 0#64 0#64 true [] with inbox := [.entropy 0xA#32] }, rfl, rfl, rfl, by decide⟩

theorem witness_OtherCommandsCompleteInOneStep : Instr.modmul ≠ .primegen ∧ Instr.modmul ≠ .keygen ∧
    (running .modmul 3#64 4#64 5#64 0#64 0#64 false []).seq = .running (runOf .modmul 3#64 4#64 5#64 0#64 0#64 false []) :=
  ⟨by decide, by decide, rfl⟩

theorem witness_NopResult : (running .nop 0#64 0#64 0#64 0#64 0#64 false []).seq = .running (runOf .nop 0#64 0#64 0#64 0#64 0#64 false []) := rfl

theorem witness_IllegalWordResult : State.reset.busy = false ∧ (0x10#32).toNat / 16 ≠ 0 ∧ 9 ≤ (0x9#32).toNat % 16 := by decide

theorem witness_ModmulResult : (running .modmul 7#64 9#64 1#64 0#64 0#64 false []).seq = .running (runOf .modmul 7#64 9#64 1#64 0#64 0#64 false []) ∧
    (runOf .modmul 7#64 9#64 1#64 0#64 0#64 false []).op.m.toNat ≠ 0 ∧ (runOf .modmul 7#64 9#64 0#64 0#64 0#64 false []).op.m.toNat = 0 :=
  ⟨rfl, by decide, by decide⟩

theorem witness_ModexpResult : (running .modexp 0#64 0#64 1#64 0#64 0#64 false []).seq = .running (runOf .modexp 0#64 0#64 1#64 0#64 0#64 false []) ∧
    (runOf .modexp 0#64 0#64 1#64 0#64 0#64 false []).op.m.toNat ≠ 0 ∧ (runOf .modexp 0#64 0#64 0#64 0#64 0#64 false []).op.m.toNat = 0 :=
  ⟨rfl, by decide, by decide⟩

theorem witness_ModinvResult : (running .modinv 5#64 0#64 1#64 0#64 0#64 false []).seq = .running (runOf .modinv 5#64 0#64 1#64 0#64 0#64 false []) ∧
    (runOf .modinv 5#64 0#64 0#64 0#64 0#64 false []).op.m.toNat = 0 ∧
    (runOf .modinv 5#64 0#64 1#64 0#64 0#64 false []).op.m.toNat ≠ 0 ∧ Nat.gcd 5 1 = 1 ∧
    (runOf .modinv 6#64 0#64 9#64 0#64 0#64 false []).op.m.toNat ≠ 0 ∧ Nat.gcd 6 9 ≠ 1 :=
  ⟨rfl, by decide, by decide, by decide, by decide, by decide⟩

theorem witness_PrimetestResult :
    (running .primetest 2#64 0#64 0#64 0#64 0#64 false []).seq = .running (runOf .primetest 2#64 0#64 0#64 0#64 0#64 false []) ∧
    2 ^ 32 ≤ (0x100000000#64).toNat ∧ (2#64).toNat < 2 ^ 32 ∧ Nat.Prime (2#64).toNat ∧ (0xFFFFFFFF#64).toNat < 2 ^ 32 ∧ ¬ Nat.Prime (0xFFFFFFFF#64).toNat := by
  refine ⟨rfl, by decide, by decide, Nat.prime_two, by decide, fun h => ?_⟩
  exact absurd ((isPrime_iff _).2 h) (by decide +kernel)

theorem witness_EncryptResult :
    (running .encrypt 42#64 0#64 1#64 0#64 0#64 false []).seq = .running (runOf .encrypt 42#64 0#64 1#64 0#64 0#64 false []) ∧
    2 ^ 32 ≤ (0x100000000#64).toNat ∧ (0xFFFFFFFF#64).toNat < 2 ^ 32 ∧ (0#64).toNat = 0 ∧ (1#64).toNat ≠ 0 :=
  ⟨rfl, by decide, by decide, by decide, by decide⟩

theorem witness_DecryptResult :
    (running .decrypt 2#64 3#64 0#64 5#64 0#64 false []).seq = .running (runOf .decrypt 2#64 3#64 0#64 5#64 0#64 false []) ∧
    (∃ p q : Nat, 2 ^ 32 ≤ p ∨ 2 ^ 32 ≤ q) ∧
    (∃ p q : Nat, p < 2 ^ 32 ∧ q < 2 ^ 32 ∧ p = 1 ∧ q = 3) ∧ (∃ p q : Nat, p < 2 ^ 32 ∧ q < 2 ^ 32 ∧ 2 ≤ p ∧ p = q) ∧
    (∃ p q : Nat, p < 2 ^ 32 ∧ q < 2 ^ 32 ∧ 2 ≤ p ∧ 2 ≤ q ∧ p ≠ q ∧ Nat.gcd 65537 ((p - 1) * (q - 1)) ≠ 1) ∧
    (∃ p q : Nat, p < 2 ^ 32 ∧ q < 2 ^ 32 ∧ 2 ≤ p ∧ 2 ≤ q ∧ p ≠ q ∧ Nat.gcd 65537 ((p - 1) * (q - 1)) = 1) :=
  ⟨rfl, ⟨0x100000000, 0, .inl (by norm_num)⟩, ⟨1, 3, by norm_num⟩, ⟨7, 7, by norm_num⟩, ⟨0x80128013, 0x8000000B, by norm_num⟩, ⟨2, 3, by norm_num⟩⟩

theorem witness_DrawStep_cap : (running .primegen 0#64 0#64 0#64 0#64 1#64 true [0#32]).seq = .running (runOf .primegen 0#64 0#64 0#64 0#64 1#64 true [0#32]) ∧
    wantsWord .primegen [0#32] = true ∧ (1#64).toNat ≠ 0 ∧ [0#32].length = (1#64).toNat :=
  ⟨rfl, by decide +kernel, by decide, by decide⟩

theorem witness_DrawStep_internal : wantsWord .keygen [] = true ∧ (runOf .keygen 0#64 0#64 0#64 0#64 0#64 true []).op.limit.toNat = 0 ∧
    (runOf .keygen 0#64 0#64 0#64 0#64 0#64 true []).op.src = true := by decide

theorem witness_DrawStep_delivered : ∃ (s : State) (run : Run), s.seq = .running run ∧ wantsWord .primegen run.words = true ∧
    run.op.limit.toNat = 0 ∧ run.op.src = false ∧ run.port = some 0xA#32 :=
  ⟨{ State.reset with seq := .running { runOf .primegen 0#64 0#64 0#64 0#64 0#64 false [] with request := false, port := some 0xA#32 } }, _, rfl, by decide⟩

theorem witness_DrawStep_waiting : wantsWord .primegen [] = true ∧ (runOf .primegen 0#64 0#64 0#64 0#64 3#64 false []).words.length ≠ (3#64).toNat ∧
    (runOf .primegen 0#64 0#64 0#64 0#64 3#64 false []).op.src = false ∧ (runOf .primegen 0#64 0#64 0#64 0#64 3#64 false []).port = none := by decide

theorem witness_CandidateRange : 2 ^ 31 ≤ 0x80000001 ∧ 0xFFFFFFFF < 2 ^ 32 ∧ 0x80000001 % 2 = 1 ∧ 0xFFFFFFFF % 2 = 1 := by decide

theorem witness_SeededWordsFollowSeed : ∃ s t : State, s.rst = false ∧ s.busy = false ∧ s.inbox = [] ∧ s.ctrl.entSrc = true ∧
    core.run 0 (s.deliverCmd 0x5#32) = .next t ∧ t.seq = .running (runOf .primegen 0#64 0#64 0#64 0#64 0#64 true []) :=
  ⟨{ State.reset with ctrl := ⟨true, false⟩ }, _, rfl, rfl, rfl, rfl, rfl, rfl⟩

/-- Table 2.6: the same after one draw from SEED = 0. -/
theorem witness_SeededWordsFollowSeed_one_draw : ∃ s t : State, s.rst = false ∧ s.busy = false ∧ s.inbox = [] ∧ s.ctrl.entSrc = true ∧
    core.run 1 (s.deliverCmd 0x5#32) = .next t ∧ t.seq = .running (runOf .primegen 0#64 0#64 0#64 0#64 0#64 true [0x7B1DCDAF#32]) := by
  obtain ⟨t, ht⟩ := exec_next .primegen (running .primegen 0#64 0#64 0#64 0#64 0#64 true [])
  have e : { State.reset with ctrl := ⟨true, false⟩ }.deliverCmd 0x5#32 = running .primegen 0#64 0#64 0#64 0#64 0#64 true [] := by decide +kernel
  refine ⟨{ State.reset with ctrl := ⟨true, false⟩ }, t, rfl, rfl, rfl, rfl, ?_, ?_⟩
  · rw [e, core_run_one, step_running _ (runOf .primegen 0#64 0#64 0#64 0#64 0#64 true []) rfl rfl rfl]
    exact ht
  have h : (nextOf (exec .primegen (running .primegen 0#64 0#64 0#64 0#64 0#64 true []))).map State.seq =
      some (.running (runOf .primegen 0#64 0#64 0#64 0#64 0#64 true [0x7B1DCDAF#32])) := by decide +kernel
  rw [ht] at h
  exact Option.some.inj h

theorem witness_CappedSeededCommandCompletes : ∃ (s : State) (run : Run), s.rst = false ∧ s.inbox = [] ∧ s.seq = .running run ∧ run.op.src = true ∧
    run.op.limit ≠ 0#64 ∧ run.words.length ≤ run.op.limit.toNat :=
  ⟨running .primegen 0#64 0#64 0#64 0#64 3#64 true [], _, rfl, rfl, rfl, rfl, by decide, by decide⟩

theorem witness_BusErrorHasNoEffect : (0xFF < 0x100 ∧ ¬ (4 = 4 ∧ 0xFF % 4 = 0 ∨ 4 = 8 ∧ 0xFF % 8 = 0)) ∧ ¬ (8 = 4 ∧ 0x34 % 4 = 0 ∨ 8 = 8 ∧ 0x34 % 8 = 0) ∧
    ¬ (2 = 4 ∧ 0x30 % 4 = 0 ∨ 2 = 8 ∧ 0x30 % 8 = 0) ∧ ∃ s : State, s.inbox = .host (.read (Config.rsacoreBase + 0xFF) 4) :: [] :=
  ⟨by decide, by decide, by decide, { State.reset with inbox := [.host (.read (Config.rsacoreBase + 0xFF) 4)] }, rfl⟩

theorem witness_AdmittedAccessGoesOn : (0xFC < 0x100 ∧ (4 = 4 ∧ 0xFC % 4 = 0 ∨ 4 = 8 ∧ 0xFC % 8 = 0)) ∧ (8 = 4 ∧ 0xF8 % 4 = 0 ∨ 8 = 8 ∧ 0xF8 % 8 = 0) ∧
    (∃ s : State, s.rst = false ∧ s.inbox = .host (.read (Config.rsacoreBase + 0xFC) 4) :: []) ∧
    ∃ s : State, s.rst = false ∧ s.inbox = .host (.write (Config.rsacoreBase + 0x30) 8 5#64) :: [] :=
  ⟨by decide, by decide, ⟨{ State.reset with inbox := [.host (.read (Config.rsacoreBase + 0xFC) 4)] }, rfl, rfl⟩,
    { State.reset with inbox := [.host (.write (Config.rsacoreBase + 0x30) 8 5#64)] }, rfl, rfl⟩

theorem witness_ReadIsLittleEndian : (4 = 4 ∧ 0x34 % 4 = 0 ∨ 4 = 8 ∧ 0x34 % 8 = 0) ∧ 3 < 8 ∧ 3 < 4 ∧ ¬ 7 < 4 := by decide

theorem witness_WindowReadsRegisters : State.reset.busy = false ∧ 0x70 ≤ 0x70 ∧ 0xFC < 0x100 := by decide

/-- The halves of A, and the reserved words past the last register. -/
theorem test_window_halves : ∃ s : State, s.memRead 0x34 4 = ⟨false, 2#64⟩ ∧ s.memRead 0x30 4 = ⟨false, 1#64⟩ ∧ s.memRead 0xFC 4 = ⟨false, 0#64⟩ :=
  ⟨{ State.reset with a := 0x200000001#64 }, by decide +kernel⟩

/-- While a command runs R0 reads the result of the previous completion (R24) and A the host's value (R67). -/
theorem test_window_reads_while_busy : ∃ s : State, s.busy = true ∧ s.memRead 0x50 8 = ⟨false, 6#64⟩ ∧ s.memRead 0x30 8 = ⟨false, 9#64⟩ :=
  ⟨{ running .primegen 0#64 0#64 0#64 0#64 0#64 false [] with r0 := 6#64, a := 9#64 }, by decide +kernel⟩

theorem witness_StatusRegisterBits : (4 = 4 ∨ 4 = 8) ∧ State.reset.memRead 0x18 8 = ⟨false, (State.reset.memRead 0x18 8).data⟩ :=
  ⟨by decide, by decide +kernel⟩

theorem witness_CtrlRegisterBits : (0x300#64).getLsbD 0 = false ∧ (0x300#64).getLsbD 1 = false := by decide

theorem witness_OperandWriteReplacesPresentedBits : (4 = 8 ∧ 4 = 0 ∨ 4 = 4 ∧ 4 = 0 ∨ 4 = 4 ∧ 4 = 4) ∧ State.reset.busy = false := by decide

theorem witness_SeedWhileBusy : (running .primegen 0#64 0#64 0#64 0#64 0#64 false []).busy = true := rfl

theorem witness_ReadOnlyWritesIgnored : 0x04 < 0x08 ∧ 0x50 ≤ 0x50 ∧ 0xF8 < 0x100 := by decide

theorem witness_ReadHasNoSideEffect : State.reset.busy = false ∧ 0x24 < 0x28 ∧ 0x30 ≤ 0x30 := by decide

theorem witness_AbortEndsRunningCommand : (0x301#64).getLsbD 0 = true ∧ (0x301#64).getLsbD 1 = false ∧ State.reset.seq = .idle ∧
    (running .primegen 0#64 0#64 0#64 0#64 0#64 false []).seq = .running (runOf .primegen 0#64 0#64 0#64 0#64 0#64 false []) :=
  ⟨by decide, by decide, rfl, rfl⟩

theorem witness_SoftResetRestoresReset : (0x303#64).getLsbD 1 = true := by decide

theorem witness_ResetInputHoldsReset : (∃ s t : State, step s = .next t ∧ s.rst = true) ∧
    ∃ s t : State, step s = .next t ∧ s.inbox = .reset true :: [] :=
  ⟨⟨{ State.reset with rst := true }, _, rfl, rfl⟩, { State.reset with inbox := [.reset true] }, _, rfl, rfl⟩

theorem witness_InterruptLevel : (0x2#64).getLsbD 1 = true ∧ State.reset.busy = false ∧
    (∃ s t : State, s.busy = true ∧ exec .nop s = .next t ∧ t.busy = false) ∧
    (0x201#64).getLsbD 1 = false ∧ (0x201#64).getLsbD 0 = true ∧ (running .primegen 0#64 0#64 0#64 0#64 0#64 false []).busy = true ∧
    (0x200#64).getLsbD 1 = false ∧ (0x200#64).getLsbD 0 = false :=
  ⟨by decide, rfl, ⟨running .nop 0#64 0#64 0#64 0#64 0#64 false [], _, rfl, rfl, rfl⟩, by decide, by decide, rfl, by decide, by decide⟩

theorem witness_InternalGenerator : (runOf .primegen 0#64 0#64 0#64 0#64 3#64 true []).op.src = true ∧
    (runOf .primegen 0#64 0#64 0#64 0#64 3#64 true []).words.length ≠ (runOf .primegen 0#64 0#64 0#64 0#64 3#64 true []).op.limit.toNat ∧
    (runOf .primegen 0#64 0#64 0#64 0#64 0#64 true []).op.limit.toNat = 0 := by decide

theorem witness_ResultsChangeOnlyAtCompletion : ∃ s t : State, step s = .next t := ⟨State.reset, _, rfl⟩

theorem witness_CommandsWriteNoOperandRegister : ∃ s t : State, step s = .next t ∧ s.rst = false ∧ s.inbox = .entropy 0xA#32 :: [] :=
  ⟨{ State.reset with inbox := [.entropy 0xA#32] }, _, rfl, rfl, rfl⟩

theorem witness_OverrunFlagOnlyFromDroppedWord : ∃ s : State, s.rst = false ∧ s.busy = true ∧ s.status.cmdOvr = false ∧
    (s.memWrite 0x08 4 1#64).status.cmdOvr = true ∧ ((s.memWrite 0x08 4 1#64).memWrite 0x18 4 0x40#64).status.cmdOvr = false :=
  ⟨running .primegen 0#64 0#64 0#64 0#64 0#64 false [], by decide⟩

theorem witness_CommandEndsByCompletionOrReset : ∃ s t : State, step s = .next t ∧ s.busy = true ∧ t.busy = false :=
  ⟨running .nop 0#64 0#64 0#64 0#64 0#64 false [], _, rfl, rfl, rfl⟩

theorem witness_HostCannotTouchRunningCommand : ∃ s t : State, s.busy = true ∧ s.hostAccess (.write (Config.rsacoreBase + 0x30) 8 5#64) = .next t :=
  ⟨running .primegen 0#64 0#64 0#64 0#64 0#64 false [], _, rfl, by rw [State.hostAccess_write _ _ _ _ (by norm_num)]; rfl⟩

theorem witness_OutcomeDependsOnSnapshotAndWords : ∃ (s1 s2 t1 t2 : State), s1 ≠ s2 ∧
    s1.seq = .running (runOf .modmul 3#64 4#64 5#64 0#64 0#64 false []) ∧ s2.seq = .running (runOf .modmul 3#64 4#64 5#64 0#64 0#64 false []) ∧
    exec .modmul s1 = .next t1 ∧ exec .modmul s2 = .next t2 :=
  ⟨running .modmul 3#64 4#64 5#64 0#64 0#64 false [], { running .modmul 3#64 4#64 5#64 0#64 0#64 false [] with a := 9#64 }, _, _,
    by decide, rfl, rfl, rfl, rfl⟩

theorem witness_OutcomeDependsOnSnapshotAndWords_nop : ∃ (s1 s2 t1 t2 : State), s1 ≠ s2 ∧
    (s1.r0 = s2.r0 ∧ s1.r1 = s2.r1 ∧ s1.r2 = s2.r2 ∧ s1.attempts = s2.attempts) ∧
    s1.seq = .running (runOf .nop 0#64 0#64 0#64 0#64 0#64 false []) ∧ s2.seq = .running (runOf .nop 0#64 0#64 0#64 0#64 0#64 false []) ∧
    exec .nop s1 = .next t1 ∧ exec .nop s2 = .next t2 ∧ t1.busy = false :=
  ⟨running .nop 0#64 0#64 0#64 0#64 0#64 false [], { running .nop 0#64 0#64 0#64 0#64 0#64 false [] with a := 9#64 }, _, _,
    by decide, ⟨rfl, rfl, rfl, rfl⟩, rfl, rfl, rfl, rfl, rfl⟩

theorem witness_StepKeepsInvariant : ∃ s t : State, Inv s ∧ step s = .next t :=
  ⟨State.reset, _, ⟨by decide, by decide, by decide, by decide, by decide, fun _ h => (nomatch h), fun _ => rfl⟩, rfl⟩

theorem witness_SerialProductAgrees : 0xFFFFFFFFFFFFFFFF < 2 ^ 64 ∧ 1 ≤ 1 := by decide

theorem witness_MillerRabinAcceptsEveryPrime : 2 < 2 ^ 32 ∧ Nat.Prime 2 ∧ Nat.Prime 61 := by norm_num

theorem witness_NotationCmdIssuesCommand : (Instr.illegal 0x11#32).wellFormed = true ∧ State.reset.rst = false ∧ State.reset.busy = false := by decide

theorem witness_LineStandsForAccess : ∃ (h : HostProgram) (line : BusLine) (access : BusAccess), h.nextLine = some line ∧ h.nextAccess = some access :=
  ⟨⟨(PseudoStmt.cmd .modmul).expand, 0, [], false, false⟩, _, _, rfl, rfl⟩

theorem witness_StepKeepsSeedFollowing_running : ∃ s t : State, SeedFollows s.seed s ∧ s.busy = true ∧ step s = .next t := by
  obtain ⟨t, ht⟩ := exec_next .primegen (running .primegen 0#64 0#64 0#64 0#64 0#64 true [])
  refine ⟨running .primegen 0#64 0#64 0#64 0#64 0#64 true [], t, fun run h _ => ?_, rfl, (step_running _ _ rfl rfl rfl).trans ht⟩
  injection h with h
  subst h
  exact ⟨rfl, rfl⟩

theorem witness_StepKeepsSeedFollowing_idle : ∃ s t : State, s.busy = false ∧ step s = .next t ∧ t.busy = true :=
  ⟨{ State.reset with inbox := [.host (.write (Config.rsacoreBase + 0x08) 4 0x5#64)] }, _, rfl,
    (step_host _ _ _ rfl rfl).trans ((State.hostAccess_write _ _ _ _ (by decide)).trans (if_pos rfl)), rfl⟩

theorem witness_ScheduledRunIsInboxRun : State.reset.inbox = [] := rfl

/-- A command with nothing drawn yet meets the invariant. -/
theorem inv_running (i : Instr) (a b m c limit : Word) (src : Bool) (hw : i.wellFormed = true) : Inv (running i a b m c limit src []) where
  err := ⟨fun h => (nomatch h), fun h => absurd rfl h⟩
  zeroed := fun h => nomatch h
  flag := fun h => nomatch h
  oor := fun h => nomatch h
  trunc := fun h => nomatch h
  running := by
    intro run h
    injection h with h
    subst h
    exact ⟨rfl, hw, rfl, rfl, fun _ => Nat.zero_le _, fun k hk => absurd hk (Nat.not_lt_zero k)⟩
  held := fun h => nomatch h

/-- The sequencer and the entropy source in turn. -/
def alternating : Schedule := fun n => if n % 2 = 0 then .sequencer else .entropy 0xA#32

theorem witness_FairCommandEnds : ∃ (sched : Schedule) (s : State) (run : Run), Inv s ∧ s.seq = .running run ∧ sched.GoesOn s ∧ sched.WeaklyFair s ∧
    sched.EntropyFair s ∧ run.op.op = .primegen ∧ run.op.limit ≠ 0#64 ∧ run.op.src = false := by
  refine ⟨alternating, running .primegen 0#64 0#64 0#64 0#64 3#64 false [], _, inv_running _ _ _ _ _ _ _ rfl, rfl, ?_, fun n => ?_, fun n => ?_, rfl,
    by decide, rfl⟩
  · refine Schedule.goesOn_of_no_host _ _ fun n access h => ?_
    unfold alternating at h
    split at h <;> cases h
  · exact ⟨2 * n, by omega, .inl (by simp [alternating])⟩
  · exact ⟨2 * n + 1, by omega, .inl ⟨0xA#32, by simp [alternating, Nat.add_mod]⟩⟩

theorem witness_FairCommandEnds_drawless : ∃ (sched : Schedule) (s : State) (run : Run), Inv s ∧ s.seq = .running run ∧ sched.GoesOn s ∧
    sched.WeaklyFair s ∧ run.op.op ≠ .primegen ∧ run.op.op ≠ .keygen := by
  exact ⟨fun _ => .sequencer, running .modmul 3#64 4#64 5#64 0#64 0#64 false [], _, inv_running _ _ _ _ _ _ _ rfl, rfl,
    Schedule.goesOn_of_no_host _ _ (fun _ _ h => by cases h), fun n => ⟨n, le_refl n, .inl rfl⟩, by decide, by decide⟩

theorem witness_ResetInputHoldsReset_level : ∃ s t : State, s.inbox = .reset false :: [] ∧ s.rst = true ∧ step s = .next t ∧ t.rst = false :=
  ⟨{ State.reset with rst := true, inbox := [.reset false] }, _, rfl, rfl, rfl, rfl⟩

theorem witness_ResetInputHoldsReset_other : ∃ s t : State, step s = .next t ∧ (∀ asserted rest, s.inbox ≠ .reset asserted :: rest) :=
  ⟨State.reset, _, rfl, fun _ _ h => by cases h⟩

theorem witness_EncodingReplaysRun : ∃ (moves : List RunMove) (h h' : HostProgram) (s t : State), (h.run s moves).outcome = .next (h', t) ∧
    (h.run s moves).lines = [.w4 0x08 1#32] := by
  have hl : ((started (PseudoStmt.cmd .modmul).expand).run State.reset [.statement]).lines = [.w4 0x08 1#32] := by
    rw [HostProgram.run_eval]
    decide +kernel
  have hm : (started (PseudoStmt.cmd .modmul).expand).move State.reset .statement =
      .next ((started (PseudoStmt.cmd .modmul).expand).afterStmt 0#64, State.reset.memWrite 0x08 4 1#64) :=
    (started (PseudoStmt.cmd .modmul).expand).turn_live State.reset rfl rfl
  exact ⟨[.statement], _, _, State.reset, _, congrArg HostRun.outcome (HostProgram.run_cons _ _ _ _ _ [] hm), hl⟩

theorem witness_LoopGivesLinesPerIteration : ∃ (h : HostProgram) (s s' : State), h.stmts = (PseudoStmt.wait "w").expand ∧ h.pc = 0 ∧
    h.halted = false ∧ s.rst = false ∧ s.busy = true ∧ s'.rst = false ∧ s'.busy = false :=
  ⟨started (PseudoStmt.wait "w").expand, running .primegen 0#64 0#64 0#64 0#64 0#64 false [], State.reset, rfl, rfl, rfl, rfl, rfl, rfl, rfl⟩

/-! ### Prime generation and key generation, last because a primality test of 32 bits is long in the kernel -/

/-- Tables 2.6, 2.7: the candidates of the words 0, 0xA and 0x2C. The tests below use these, so that each is tested once. -/
theorem candidate_of_0_composite : candPrime 0x0#32 = false := by decide +kernel
theorem candidate_of_A_prime : candPrime 0xA#32 = true := by decide +kernel
theorem candidate_of_2C_prime : candPrime 0x2C#32 = true := by decide +kernel

/-- Table 2.7: the words 0xA, 0xA, 0x2C give the key (0x8000000B, 0x8000002D): `q = p` is redrawn. -/
theorem keygen_words_give_key : keygenProc [0xA#32, 0xA#32, 0x2C#32] = .done 0x8000000B#64 0x8000002D#64 0x4000001C000001EF#64 := by
  simp only [keygenProc, keygenFrom, candidate_of_A_prime, candidate_of_2C_prime]
  decide +kernel

/-- 2.7: the smallest pair of primes. -/
theorem test_keygen_smallest_key : (nextOf (exec .keygen (running .keygen 0#64 0#64 0#64 0#64 0#64 false [0xA#32, 0xA#32, 0x2C#32]))).map
    (fun t => (outputs t, t.attempts, t.busy, t.status.err)) =
      some ((0x60002#64, 0x8000000B#64, 0x8000002D#64, 0x4000001C000001EF#64), 3#64, false, false) := by
  rw [exec, execKeygen, State.onRun_running _ _ _ rfl]
  simp only [Run.after_words, keygen_words_give_key]
  decide +kernel

theorem witness_PrimegenResult : ∃ (s : State) (run : Run), s.seq = .running run ∧ run.words = [0#32] ++ [0xA#32] ∧
    (∀ v ∈ [0#32], ¬ Nat.Prime (v ||| 0x80000001#32).toNat) ∧ Nat.Prime (0xA#32 ||| 0x80000001#32).toNat := by
  refine ⟨running .primegen 0#64 0#64 0#64 0#64 0#64 false [0#32, 0xA#32], _, rfl, rfl, fun v hv => ?_, (candPrime_iff 0xA#32).1 candidate_of_A_prime⟩
  rw [List.mem_singleton.1 hv, ← candPrime_iff, candidate_of_0_composite]
  decide

theorem witness_KeygenResult : (running .keygen 0#64 0#64 0#64 0#64 0#64 false []).seq = .running (runOf .keygen 0#64 0#64 0#64 0#64 0#64 false []) ∧
    keygenPseudocode [] = .need ∧ keygenPseudocode [0xA#32, 0x2C#32] = .done 0x8000000B#64 0x8000002D#64 0x4000001C000001EF#64 := by
  refine ⟨rfl, by decide, ?_⟩
  simp only [keygenPseudocode, keygenLoop, genOther, genPrime, List.length, candidate_of_A_prime, candidate_of_2C_prime]
  decide +kernel

theorem witness_KeygenKeyValid : ∃ (s t : State) (run : Run), s.seq = .running run ∧ exec .keygen s = .next t ∧ t.busy = false ∧ t.status.err = false := by
  obtain ⟨t, ht⟩ := exec_next .keygen (running .keygen 0#64 0#64 0#64 0#64 0#64 false [0xA#32, 0xA#32, 0x2C#32])
  have h := test_keygen_smallest_key
  rw [ht] at h
  simp only [nextOf, Option.map_some, Option.some.injEq, Prod.mk.injEq] at h
  exact ⟨_, t, _, rfl, ht, h.2.2.1, h.2.2.2⟩

theorem witness_RsaRoundTrip : ∃ (sk tk se sd : State) (runk rune rund : Run) (c : Word), sk.seq = .running runk ∧ exec .keygen sk = .next tk ∧
    tk.busy = false ∧ tk.status.err = false ∧ (42#64).toNat < 2 ^ 32 ∧ se.seq = .running rune ∧ rune.op.a = 42#64 ∧ rune.op.m = tk.r2 ∧
    (∃ te, exec .encrypt se = .next te ∧ te.r0 = c) ∧ sd.seq = .running rund ∧ rund.op.a = tk.r0 ∧ rund.op.b = tk.r1 ∧ rund.op.c = c := by
  obtain ⟨sk, tk, runk, h1, h2, h3, h4⟩ := witness_KeygenKeyValid
  obtain ⟨te, he⟩ := exec_next .encrypt (running .encrypt 42#64 0#64 tk.r2 0#64 0#64 false [])
  exact ⟨sk, tk, _, running .decrypt tk.r0 tk.r1 0#64 te.r0 0#64 false [], runk, _, _, te.r0, h1, h2, h3, h4, by decide, rfl, rfl, rfl,
    ⟨te, he, rfl⟩, rfl, rfl, rfl, rfl⟩

end Sys2Proof.Tests
end

section
/-! The accesses to a register of the window, and to CMD in particular (10_state.md rule R18; 20_memory.md rules R41 to R44). -/

namespace Sys2Proof.Machine

open Sys2Proof

/-- R44: an admitted write at an offset of register `r` is the write of that register. -/
theorem State.memWrite_of_regAt {off bytes : Nat} {r : Reg} (s : State) (v : Word) (ha : accessAdmitted off bytes = true)
    (hr : regAt off = some r) : s.memWrite off bytes v = s.writeReg r off bytes v := by
  simp [State.memWrite, ha, hr]

/-- R43: an admitted read at an offset of register `r` answers the presented bits of its readable value. -/
theorem State.memRead_of_regAt {off bytes : Nat} {r : Reg} (s : State) (ha : accessAdmitted off bytes = true)
    (hr : regAt off = some r) : s.memRead off bytes = ⟨false, readLanes (s.regValue r) off bytes⟩ := by
  simp [State.memRead, State.windowWord, ha, hr]

/-- R41: an access reads 0 from a value that is 0. -/
@[simp] theorem readLanes_zero (off bytes : Nat) : readLanes 0#64 off bytes = 0#64 := by
  simp [readLanes]

/-- R18: a write of CMD that presents bits [31:0] delivers them as the command word. -/
theorem State.memWrite_cmd_low {off bytes : Nat} (s : State) (v : Word) (ha : accessAdmitted off bytes = true)
    (hr : regAt off = some .cmd) (hl : presentsLow off = true) :
    s.memWrite off bytes v = s.deliverCmd (v.extractLsb' 0 32) :=
  (s.memWrite_of_regAt v ha hr).trans (if_pos hl)

/-- R18: a write of CMD that does not present bits [31:0] is ignored. -/
theorem State.memWrite_cmd_high {off bytes : Nat} (s : State) (v : Word) (ha : accessAdmitted off bytes = true)
    (hr : regAt off = some .cmd) (hl : presentsLow off = false) : s.memWrite off bytes v = s :=
  (s.memWrite_of_regAt v ha hr).trans (if_neg (by simp [hl]))

/-- R18: every admitted read of CMD returns 0. -/
theorem State.memRead_cmd {off bytes : Nat} (s : State) (ha : accessAdmitted off bytes = true) (hr : regAt off = some .cmd) :
    s.memRead off bytes = ⟨false, 0#64⟩ := by
  rw [s.memRead_of_regAt ha hr, State.regValue, readLanes_zero]

/-- Settles O6: the offsets 0x08 and 0x0C are CMD's, and only the accesses at 0x08 present its low half. -/
theorem cmdRegisterTakesLowWord : Obligations.CmdRegisterTakesLowWord := by
  intro s value
  have admitted8 : accessAdmitted 0x08 8 = true := by decide
  have admitted4 : accessAdmitted 0x08 4 = true := by decide
  have admittedHigh : accessAdmitted 0x0C 4 = true := by decide
  exact ⟨s.memWrite_cmd_low value admitted4 rfl rfl, s.memWrite_cmd_low value admitted8 rfl rfl,
    s.memWrite_cmd_high value admittedHigh rfl rfl, s.memRead_cmd admitted8 rfl, s.memRead_cmd admitted4 rfl,
    s.memRead_cmd admittedHigh rfl⟩

end Sys2Proof.Machine
end

section
/-! The accesses that are not admitted: bus errors, with `rst` released and asserted (20_memory.md rules R39, R40, R42). -/

namespace Sys2Proof.Machine

open Sys2Proof

/-- R42: a read that is not admitted answers an error and data 0. -/
theorem State.memRead_of_not_admitted {off bytes : Nat} (s : State) (ha : ¬ accessAdmitted off bytes = true) :
    s.memRead off bytes = ⟨true, 0#64⟩ :=
  if_neg ha

/-- R42: a write that is not admitted has no effect. -/
theorem State.memWrite_of_not_admitted {off bytes : Nat} (s : State) (v : Word) (ha : ¬ accessAdmitted off bytes = true) :
    s.memWrite off bytes v = s :=
  if_neg ha

/-- R114: a host access that faults from `s` and from its reset state faults as a turn, whether or not `rst` is asserted (log 6). -/
theorem State.turn_host_fault {access : BusAccess} {f : Fault} (s : State) (live : s.hostAccess access = .fault f)
    (held : s.hardReset.hostAccess access = .fault f) : s.turn (.host access) = .fault f := by
  unfold State.turn
  split
  · rw [State.resetTurn, held, heldInReset]
  · exact live

/-- R42: an access in the window that is not admitted is a fault of the host program, from any state. -/
theorem State.hostAccess_busError {access : BusAccess} {off bytes : Nat} (s : State) (ho : off < 0x100)
    (ha : ¬ accessAdmitted off bytes = true)
    (haccess : access = .read (Config.rsacoreBase + off) bytes ∨ ∃ v, access = .write (Config.rsacoreBase + off) bytes v) :
    s.hostAccess access = .fault .busError := by
  obtain rfl | ⟨v, rfl⟩ := haccess
  · rw [s.hostAccess_read off bytes ho, if_neg ha]
  · rw [s.hostAccess_write off bytes v ho, if_neg ha]

/-- Settles O29: an access outside R39 and R40 is not admitted, and so is a bus error from every state, the reset state of an asserted `rst`
included. -/
theorem busErrorHasNoEffect : Obligations.BusErrorHasNoEffect := by
  intro s off bytes ho hn
  have ha : ¬ accessAdmitted off bytes = true := mt (accessAdmitted_iff off bytes).1 hn
  refine ⟨s.memRead_of_not_admitted ha, fun v => s.memWrite_of_not_admitted v ha, fun rest access haccess hi => ?_⟩
  rw [step_cons s _ rest hi]
  exact State.turn_host_fault _ (State.hostAccess_busError _ ho ha haccess) (State.hostAccess_busError _ ho ha haccess)

end Sys2Proof.Machine
end

section
/-! The opcode map: words whose bits [31:4] are 0 (30_encoding.md rules R57, R59). -/

namespace Sys2Proof.Machine

open Sys2Proof

/-- R59: a word whose bits [31:4] are 0 is illegal exactly when its opcode is reserved. -/
theorem wordIllegal_setWidth_iff (op : BitVec 4) : wordIllegal (op.setWidth 32) = true ↔ 9 ≤ op.toNat := by
  have hop : op.toNat < 16 := op.isLt
  rw [wordIllegal_iff, BitVec.toNat_setWidth_of_le (by decide)]
  omega

/-- R57: the instruction a well-formed term's word decodes to is the term, ILLEGAL with its word included. -/
theorem decodeWord_encode {i : Instr} (h : i.wellFormed = true) : decodeWord (encode i) = i := by
  cases i with
  | nop => exact (Laws.EncodingLegality.nop h).1
  | modmul => exact (Laws.EncodingLegality.modmul h).1
  | modexp => exact (Laws.EncodingLegality.modexp h).1
  | modinv => exact (Laws.EncodingLegality.modinv h).1
  | primetest => exact (Laws.EncodingLegality.primetest h).1
  | primegen => exact (Laws.EncodingLegality.primegen h).1
  | keygen => exact (Laws.EncodingLegality.keygen h).1
  | encrypt => exact (Laws.EncodingLegality.encrypt h).1
  | decrypt => exact (Laws.EncodingLegality.decrypt h).1
  | illegal w => exact (Laws.EncodingLegality.illegal w h).1

/-- R59: an illegal word decodes to ILLEGAL with that word. -/
theorem decodeWord_of_wordIllegal {w : Word32} (h : wordIllegal w = true) : decodeWord w = .illegal w :=
  decodeWord_encode (i := .illegal w) h

/-- Settles O1: each of the nine words is the word of its command, and a reserved opcode's word is illegal. -/
theorem opcodeSelectsCommand : Obligations.OpcodeSelectsCommand :=
  ⟨decodeWord_encode (i := .nop) rfl, decodeWord_encode (i := .modmul) rfl, decodeWord_encode (i := .modexp) rfl,
    decodeWord_encode (i := .modinv) rfl, decodeWord_encode (i := .primetest) rfl, decodeWord_encode (i := .primegen) rfl,
    decodeWord_encode (i := .keygen) rfl, decodeWord_encode (i := .encrypt) rfl, decodeWord_encode (i := .decrypt) rfl,
    fun op reserved => decodeWord_of_wordIllegal ((wordIllegal_setWidth_iff op).2 reserved)⟩

end Sys2Proof.Machine
end

section
/-! The life of a command at CMD: the issue of its word, the drop while BUSY, and the completion of NOP and of an illegal word
(40_control.md rules R65, R66, R73, R74). -/

namespace Sys2Proof.Machine

open Sys2Proof

/-- R39, R40: both widths are admitted at the offset of a whole register. -/
theorem accessAdmitted_of_aligned {off bytes : Nat} (ho : off % 8 = 0) (hb : bytes = 4 ∨ bytes = 8) :
    accessAdmitted off bytes = true := by
  rw [accessAdmitted_iff]
  omega

/-- R44, R46: the step of an admitted host write while `rst` is released. -/
theorem step_write {off bytes : Nat} {v : Word} {rest : List Turn} (s : State) (hr : s.rst = false) (ho : off < 0x100)
    (ha : accessAdmitted off bytes = true) (hi : s.inbox = .host (.write (Config.rsacoreBase + off) bytes v) :: rest) :
    step s = .next ({ s with inbox := rest }.memWrite off bytes v) := by
  rw [step_host s _ rest hr hi, State.hostAccess_write _ _ _ _ ho, if_pos ha]

/-- R18: the step of a host write to CMD delivers the low word of its value. -/
theorem step_cmdWrite {bytes : Nat} {v : Word} {rest : List Turn} (s : State) (hr : s.rst = false) (hb : bytes = 4 ∨ bytes = 8)
    (hi : s.inbox = .host (.write (Config.rsacoreBase + 0x08) bytes v) :: rest) :
    step s = .next ({ s with inbox := rest }.deliverCmd (v.extractLsb' 0 32)) := by
  have ha : accessAdmitted 0x08 bytes = true := accessAdmitted_of_aligned rfl hb
  rw [step_write s hr (by decide) ha hi, State.memWrite_cmd_low _ v ha rfl rfl]

/-- R66: a command word delivered while BUSY = 1 only sets CMD_OVR. -/
theorem State.deliverCmd_of_busy (s : State) (w : Word32) (hb : s.busy = true) :
    s.deliverCmd w = { s with status := { s.status with cmdOvr := true } } :=
  if_pos hb

/-- R65: a command word delivered while BUSY = 0 is issued. -/
theorem State.deliverCmd_of_not_busy (s : State) (w : Word32) (hb : s.busy = false) : s.deliverCmd w = s.issue w :=
  if_neg (by simp [hb])

/-- R18, R54: the OP field of the command word that a value written to CMD delivers. -/
theorem opField_lowWord (v : Word) : (v.extractLsb' 0 32).extractLsb' 0 4 = v.extractLsb' 0 4 := by
  rw [← BitVec.setWidth_eq_extractLsb' (w := 32) (by decide), BitVec.extractLsb'_setWidth_of_le (by decide)]

/-- Settles O4: the write delivers its low word, which the idle sequencer issues; LASTOP is the low four bits of that word. -/
theorem cmdWriteIssuesCommand : Obligations.CmdWriteIssuesCommand := by
  intro s bytes value rest hr hbusy hbytes hi
  have hstep : step s = .next ({ s with inbox := rest }.issue (value.extractLsb' 0 32)) := by
    rw [step_cmdWrite s hr hbytes hi, State.deliverCmd_of_not_busy]
    exact hbusy
  exact ⟨_, _, hstep, rfl, rfl, rfl, rfl, rfl, rfl, rfl, rfl, rfl, rfl, opField_lowWord value, rfl, rfl⟩

/-- Settles O5: the write delivers its low word, which a running sequencer drops. -/
theorem cmdWriteWhileBusyDropped : Obligations.CmdWriteWhileBusyDropped := by
  intro s bytes value rest hr hbusy hbytes hi
  rw [step_cmdWrite s hr hbytes hi, State.deliverCmd_of_busy]
  exact hbusy

/-- R73: the sequencer step of a running NOP. -/
theorem exec_nop_running {run : Run} (s : State) (h : s.seq = .running run) : exec .nop s = .next s.completeNop :=
  congrArg _ (s.onRun_running run _ h)

/-- R74: the sequencer step of a running illegal word. -/
theorem exec_illegal_running {run : Run} (s : State) (w : Word32) (h : s.seq = .running run) :
    exec (.illegal w) s = .next (s.raise run .illegalOp) :=
  congrArg _ (s.onRun_running run _ h)

/-- R73: the completion of NOP leaves the host's side alone. -/
theorem State.completeNop_sameHostSide (s : State) : SameHostSide s s.completeNop :=
  ⟨rfl, rfl, rfl, rfl, rfl, rfl, rfl, rfl, rfl, rfl, rfl, rfl⟩

/-- Settles O10: NOP's one step is its completion, which writes STATUS and the sequencer's mode only. -/
theorem nopResult : Obligations.NopResult :=
  ⟨rfl, fun s _ h => ⟨s.completeNop, exec_nop_running s h, rfl, rfl, rfl, rfl, rfl, rfl, rfl, rfl, rfl, rfl, rfl, rfl,
    s.completeNop_sameHostSide⟩⟩

/-- R54: the number of a word's OP field. -/
theorem opField_toNat (w : Word32) : (w.extractLsb' 0 4).toNat = w.toNat % 16 := by
  rw [BitVec.extractLsb'_toNat, Nat.shiftRight_zero]

/-- Settles O11: the word is issued as ILLEGAL with no words drawn, and its one step raises ILLEGAL_OP, which keeps the LASTOP of the issue. -/
theorem illegalWordResult : Obligations.IllegalWordResult := by
  intro s w hbusy hillegal
  have hdecode : decodeWord w = .illegal w := decodeWord_of_wordIllegal ((wordIllegal_iff w).2 hillegal)
  rw [s.deliverCmd_of_not_busy w hbusy]
  exact ⟨hdecode, _, _, s.issue_seq w, exec_illegal_running _ w (s.issue_seq w), State.raise_failed _ _ _, opField_toNat w, rfl⟩

end Sys2Proof.Machine
end

section
/-! Abort by a write of CTRL (10_state.md rule R19; 20_memory.md rule R45; 40_control.md rule R75). -/

namespace Sys2Proof.Machine

open Sys2Proof

/-- R45: a write of CTRL that presents bits [31:0] acts on them. -/
theorem State.memWrite_ctrl_low {off bytes : Nat} (s : State) (v : Word) (ha : accessAdmitted off bytes = true)
    (hr : regAt off = some .ctrl) (hl : presentsLow off = true) : s.memWrite off bytes v = s.writeCtrl v :=
  (s.memWrite_of_regAt v ha hr).trans (if_pos hl)

/-- R75: ABORT of a running command is the error completion ABORTED. -/
theorem State.abort_running {run : Run} (s : State) (h : s.seq = .running run) : s.abort = s.raise run .aborted :=
  s.onRun_running run _ h

/-- R75: ABORT on an IDLE sequencer has no effect. -/
theorem State.abort_idle (s : State) (h : s.seq = .idle) : s.abort = s :=
  s.onRun_idle _ h

/-- R45: a write of CTRL with ABORT and without SRST writes ENT_SRC and IRQ_EN and then aborts. -/
theorem State.writeCtrl_abort (s : State) {v : Word} (habort : v.getLsbD 0 = true) (hsrst : v.getLsbD 1 = false) :
    s.writeCtrl v = (s.setCtrl v).abort := by
  rw [State.writeCtrl, hsrst, habort, if_neg (by decide), if_pos rfl]

/-- Settles O39: the write aborts after it has written ENT_SRC and IRQ_EN, and an abort depends on the sequencer's mode alone. -/
theorem abortEndsRunningCommand : Obligations.AbortEndsRunningCommand := by
  intro s bytes value hbytes habort hsrst
  have hwrite : s.memWrite 0x10 bytes value = (s.setCtrl value).abort := by
    rw [s.memWrite_ctrl_low value (accessAdmitted_of_aligned rfl hbytes) rfl rfl, s.writeCtrl_abort habort hsrst]
  rw [hwrite]
  refine ⟨fun run hrun => ?_, fun hidle => ?_⟩
  · rw [State.abort_running (s.setCtrl value) hrun]
    exact State.raise_failed _ _ _
  · exact State.abort_idle (s.setCtrl value) hidle

end Sys2Proof.Machine
end

section
/-! The modular commands: MODMUL, MODEXP and MODINV, and the modulus 0 they refuse (41_modarith.md rules R77 to R83). -/

namespace Sys2Proof.Machine

open Sys2Proof

/-- R77: a value reduced modulo a nonzero register fits a register. -/
theorem narrow_mod_toNat (x : Nat) {m : Word} (hm : m.toNat ≠ 0) : (narrow (x % m.toNat)).toNat = x % m.toNat :=
  narrow_toNat _ ((Nat.mod_lt x (Nat.pos_of_ne_zero hm)).trans m.isLt)

/-- R77: a greatest common divisor with a nonzero register fits a register. -/
theorem narrow_gcd_toNat (x : Nat) {m : Word} (hm : m.toNat ≠ 0) : (narrow (Nat.gcd x m.toNat)).toNat = Nat.gcd x m.toNat :=
  narrow_toNat _ ((Nat.gcd_le_right x (Nat.pos_of_ne_zero hm)).trans_lt m.isLt)

/-- R69: the successful completion with results given by number. -/
theorem State.complete_completed_of_toNat {x y z : Word} {i j k : Nat} (s : State) (run : Run) (f : Flags) (hx : x.toNat = i)
    (hy : y.toNat = j) (hz : z.toNat = k) : Completed s (s.complete run x y z f) run i j k f.flag f.oor f.trunc := by
  subst hx hy hz
  exact s.complete_completed run x y z f

/-- R78, R79, R81: the completion MODMUL and MODEXP share, with the exact result `x` reduced modulo `op.M`, or BAD_MODULUS. -/
def State.completeReduced (s : State) (run : Run) (x : Nat) : State :=
  if run.op.m = 0#64 then s.raise run .badModulus
  else s.complete run (narrow (x % run.op.m.toNat)) 0#64 0#64 ⟨false, false, false⟩

/-- R79: the sequencer step of a running MODMUL. -/
theorem exec_modmul_running {run : Run} (s : State) (h : s.seq = .running run) :
    exec .modmul s = .next (s.completeReduced run (run.op.a.toNat * run.op.b.toNat)) :=
  congrArg _ (s.onRun_running run _ h)

/-- R81: the sequencer step of a running MODEXP; its loop computes the exact power, reduced. -/
theorem exec_modexp_running {run : Run} (s : State) (h : s.seq = .running run) :
    exec .modexp s = .next (s.completeReduced run (run.op.a.toNat ^ run.op.b.toNat)) := by
  rw [State.completeReduced, ← modExp_eq _ _ _ run.op.b.isLt]
  exact congrArg _ (s.onRun_running run _ h)

/-- R77: a nonzero modulus gives the reduced value in R0, exactly. -/
theorem State.completeReduced_completed (s : State) (run : Run) (x : Nat) (hm : run.op.m.toNat ≠ 0) :
    Completed s (s.completeReduced run x) run (x % run.op.m.toNat) 0 0 false false false := by
  rw [State.completeReduced, if_neg (mt (word_eq_zero_iff _).1 hm)]
  exact s.complete_completed_of_toNat run _ (narrow_mod_toNat x hm) rfl rfl

/-- R78: a modulus of 0 ends with BAD_MODULUS. -/
theorem State.completeReduced_failed (s : State) (run : Run) (x : Nat) (hm : run.op.m.toNat = 0) :
    Failed s (s.completeReduced run x) run 2#4 := by
  rw [State.completeReduced, if_pos ((word_eq_zero_iff _).2 hm)]
  exact s.raise_failed run .badModulus

/-- Settles O12: MODMUL's one step is the reduced completion of the exact product. -/
theorem modmulResult : Obligations.ModmulResult :=
  ⟨rfl, fun s run h => ⟨_, exec_modmul_running s h, s.completeReduced_completed run _, s.completeReduced_failed run _⟩⟩

/-- Settles O13: MODEXP's one step is the reduced completion of the exact power, since the square-and-multiply loop computes it. -/
theorem modexpResult : Obligations.ModexpResult :=
  ⟨rfl, fun s run h => ⟨_, exec_modexp_running s h, s.completeReduced_completed run _, s.completeReduced_failed run _⟩⟩

/-- R78, R83: everything the sequencer step of a running MODINV can do. -/
theorem exec_modinv_cases {run : Run} (s : State) (h : s.seq = .running run) :
    (run.op.m.toNat = 0 ∧ exec .modinv s = .next (s.raise run .badModulus)) ∨
    (run.op.m.toNat ≠ 0 ∧ Nat.gcd run.op.a.toNat run.op.m.toNat ≠ 1 ∧ exec .modinv s =
      .next (s.complete run 0#64 (narrow (Nat.gcd run.op.a.toNat run.op.m.toNat)) 0#64 ⟨false, false, false⟩)) ∨
    (run.op.m.toNat ≠ 0 ∧ Nat.gcd run.op.a.toNat run.op.m.toNat = 1 ∧ exec .modinv s =
      .next (s.complete run (narrow (modInverse run.op.a.toNat run.op.m.toNat)) 1#64 0#64 ⟨true, false, false⟩)) := by
  simp only [exec, execModinv, s.onRun_running run _ h, word_eq_zero_iff]
  split
  case isTrue hm => exact .inl ⟨hm, rfl⟩
  case isFalse hm =>
    split
    case isTrue hg => exact .inr (.inr ⟨hm, hg, rfl⟩)
    case isFalse hg => exact .inr (.inl ⟨hm, hg, rfl⟩)

/-- R83: below `m`, the inverse of an `a` prime to `m` is unique. -/
theorem inverse_unique {a m x y : Nat} (hg : Nat.gcd a m = 1) (hx : x < m) (hy : y < m) (hax : a * x % m = 1 % m)
    (hay : a * y % m = 1 % m) : y = x := by
  have hmod : a * y ≡ a * x [MOD m] := hay.trans hax.symm
  exact (hmod.cancel_left_of_coprime ((Nat.gcd_comm m a).trans hg)).eq_of_lt_of_lt hy hx

/-- Settles O14: each of MODINV's three steps meets its clause and contradicts the conditions of the other two; the inverse is `modInverse`. -/
theorem modinvResult : Obligations.ModinvResult := by
  refine ⟨rfl, fun s run h => ?_⟩
  obtain ⟨hm, hexec⟩ | ⟨hm, hg, hexec⟩ | ⟨hm, hg, hexec⟩ := exec_modinv_cases s h
  · exact ⟨_, hexec, fun _ => s.raise_failed run .badModulus, fun hm' => absurd hm hm', fun hm' => absurd hm hm'⟩
  · refine ⟨_, hexec, fun hm' => absurd hm' hm, fun _ _ => ?_, fun _ hg' => absurd hg' hg⟩
    exact s.complete_completed_of_toNat run _ rfl (narrow_gcd_toNat _ hm) rfl
  · refine ⟨_, hexec, fun hm' => absurd hm' hm, fun _ hg' => absurd hg hg', fun _ _ => ?_⟩
    obtain ⟨hlt, hinv⟩ := modInverse_spec run.op.a.toNat run.op.m.toNat (Nat.pos_of_ne_zero hm) hg
    exact ⟨_, hlt, hinv, fun y hy hay => inverse_unique hg hlt hy hinv hay,
      s.complete_completed_of_toNat run _ (narrow_toNat _ (hlt.trans run.op.m.isLt)) rfl rfl⟩

end Sys2Proof.Machine
end

section
/-! The primality test and the internal generator (42_prime.md rules R87, R88, R91). -/

namespace Sys2Proof.Machine

open Sys2Proof

/-- R91: everything the sequencer step of a running PRIMETEST can do. -/
theorem exec_primetest_cases {run : Run} (s : State) (h : s.seq = .running run) :
    (2 ^ 32 ≤ run.op.a.toNat ∧ exec .primetest s = .next (s.raise run .width)) ∨
    (run.op.a.toNat < 2 ^ 32 ∧ Nat.Prime run.op.a.toNat ∧
      exec .primetest s = .next (s.complete run 1#64 0#64 0#64 ⟨true, false, false⟩)) ∨
    (run.op.a.toNat < 2 ^ 32 ∧ ¬ Nat.Prime run.op.a.toNat ∧
      exec .primetest s = .next (s.complete run 0#64 0#64 0#64 ⟨false, false, false⟩)) := by
  simp only [exec, execPrimetest, s.onRun_running run _ h, fitsU32_iff]
  split
  case isTrue hlt =>
    rw [lowU32_eq _ hlt]
    cases hp : isPrime run.op.a.toNat with
    | true => exact .inr (.inl ⟨hlt, (isPrime_iff _).1 hp, rfl⟩)
    | false => exact .inr (.inr ⟨hlt, mt (isPrime_iff _).2 (by simp [hp]), rfl⟩)
  case isFalse hge => exact .inl ⟨Nat.le_of_not_lt hge, rfl⟩

/-- Settles O15: each of PRIMETEST's three steps meets its clause and contradicts the conditions of the other two. -/
theorem primetestResult : Obligations.PrimetestResult := by
  refine ⟨rfl, fun s run h => ?_⟩
  obtain ⟨hge, hexec⟩ | ⟨hlt, hp, hexec⟩ | ⟨hlt, hp, hexec⟩ := exec_primetest_cases s h
  · exact ⟨_, hexec, fun _ => s.raise_failed run .width, fun hlt => absurd hge hlt.not_ge, fun hlt => absurd hge hlt.not_ge⟩
  · exact ⟨_, hexec, fun hge => absurd hge hlt.not_ge, fun _ _ => s.complete_completed run _ _ _ _, fun _ hn => absurd hp hn⟩
  · exact ⟨_, hexec, fun hge => absurd hge hlt.not_ge, fun _ hp' => absurd hp' hp, fun _ _ => s.complete_completed run _ _ _ _⟩

/-- R87: the number of a draw's new state. -/
theorem splitmixNext_fst_toNat (s : Word) : (splitmixNext s).1.toNat = (s.toNat + 0x9E3779B97F4A7C15) % 2 ^ 64 :=
  splitmixState_toNat s

/-- R87: the number of a draw's word is the low half of the three mixing steps of the new state. -/
theorem splitmixNext_snd_toNat (s : Word) :
    (splitmixNext s).2.toNat = (splitmixMix3 (splitmixMix2 (splitmixMix1 (splitmixNext s).1))).toNat % 2 ^ 32 :=
  BitVec.extractLsb'_toNat 0 32 _

/-- R87: the first draw from SEED = 0. -/
theorem splitmixNext_zero : splitmixNext 0#64 = (0x9E3779B97F4A7C15#64, 0x7B1DCDAF#32) := by
  decide +kernel

/-- R88: when the cap is not reached, by number. -/
theorem capReached_eq_false_iff (op : Snapshot) (n : Nat) :
    op.capReached n = false ↔ op.limit.toNat = 0 ∨ n ≠ op.limit.toNat := by
  rw [← Bool.not_eq_true, capReached_iff, not_and_or, not_not]

/-- R87, R88: a draw from the internal generator, below the cap, advances SEED and appends its word. -/
theorem State.draw_internal (s : State) (run : Run) (hsrc : run.op.src = true)
    (hcap : run.op.capReached run.words.length = false) :
    s.draw run = { s with
      seed := (splitmixNext s.seed).1
      seq := .running (Run.after run.op (run.words ++ [(splitmixNext s.seed).2])) } := by
  rw [State.draw, hcap, if_neg (by decide), if_pos hsrc]

/-- Settles O25: the number of each step of the function, its value at 0, and the internal draw. -/
theorem internalGenerator : Obligations.InternalGenerator := by
  refine ⟨fun s => ⟨splitmixNext_fst_toNat s, ?_⟩, splitmixNext_zero, fun s run hsrc hcap => ?_⟩
  · rw [splitmixNext_snd_toNat, splitmixMix3_toNat, splitmixMix2_toNat, splitmixMix1_toNat, splitmixNext_fst_toNat]
  · rw [s.draw_internal run hsrc ((capReached_eq_false_iff _ _).2 hcap)]
    exact ⟨rfl, _, rfl, rfl, rfl⟩

end Sys2Proof.Machine
end

section
/-! The keys that KEYGEN returns (43_rsa.md rules R94, R95). -/

namespace Sys2Proof.Machine

open Sys2Proof

/-- R95: one factor of a key, a prime of exactly 32 bits. -/
structure KeyPrime (p : Word) : Prop where
  prime : Nat.Prime p.toNat
  lower : 2 ^ 31 ≤ p.toNat
  upper : p.toNat < 2 ^ 32

/-- R95: the source's key-validity property of the results `(p, q, n)` of KEYGEN. -/
structure ValidKey (p q n : Word) : Prop where
  left : KeyPrime p
  right : KeyPrime q
  distinct : p ≠ q
  invertible : Nat.gcd 65537 ((p.toNat - 1) * (q.toNat - 1)) = 1
  modulus : n.toNat = p.toNat * q.toNat

/-- R94: what KEYGEN's procedure knows of its position: the `p` it draws a `q` for has been accepted. -/
def KeyPos.Accepted : KeyPos → Prop
  | .first => True
  | .second p => KeyPrime p

/-- R90: a prime candidate is a factor a key may have. -/
theorem keyPrime_cand {w : Word32} (h : candPrime w = true) : KeyPrime (cand w) where
  prime := (isPrime_iff _).1 h
  lower := by
    rw [cand_toNat, BitVec.toNat_or]
    exact le_trans (by decide) Nat.right_le_or
  upper := by
    rw [cand_toNat]
    exact BitVec.isLt _

/-- R94: what the test of the exponent says. -/
theorem exponentInvertible_iff (p q : Nat) :
    exponentInvertible p q = true ↔ Nat.gcd 65537 ((p - 1) * (q - 1)) = 1 :=
  beq_iff_eq

/-- R95: two distinct primes of a key with an invertible exponent are a valid key with their product, which fits a register. -/
theorem validKey_product {p q : Word} (hp : KeyPrime p) (hq : KeyPrime q) (hne : p ≠ q)
    (hinv : exponentInvertible p.toNat q.toNat = true) : ValidKey p q (BitVec.ofNat 64 (p.toNat * q.toNat)) where
  left := hp
  right := hq
  distinct := hne
  invertible := (exponentInvertible_iff _ _).1 hinv
  modulus := narrow_toNat _ ((Nat.mul_lt_mul'' hp.upper hq.upper).trans_eq (by decide))

/-- R95: the modulus of a valid key. -/
theorem ValidKey.modulus_range {p q n : Word} (h : ValidKey p q n) : 2 ^ 62 < n.toNat ∧ n.toNat < 2 ^ 64 := by
  refine ⟨?_, n.isLt⟩
  have hne : p.toNat ≠ q.toNat := mt BitVec.eq_of_toNat_eq h.distinct
  have hp := h.left.lower
  have hq := h.right.lower
  rw [h.modulus]
  obtain hlt | hlt := hne.lt_or_gt
  · calc 2 ^ 62 < 2 ^ 31 * (2 ^ 31 + 1) := by decide
      _ ≤ p.toNat * q.toNat := Nat.mul_le_mul hp (by omega)
  · calc 2 ^ 62 < (2 ^ 31 + 1) * 2 ^ 31 := by decide
      _ ≤ p.toNat * q.toNat := Nat.mul_le_mul (by omega) hq

/-- R99: a message of 32 bits lies below the modulus of a valid key. -/
theorem ValidKey.message_lt {p q n : Word} {m : Nat} (h : ValidKey p q n) (hm : m < 2 ^ 32) : m < n.toNat := by
  have := h.modulus_range.1
  omega

/-- R94, R95: KEYGEN's procedure returns valid keys only, from every position whose `p` was accepted. -/
theorem keygenFrom_valid {p q n : Word} (words : List Word32) :
    ∀ pos : KeyPos, pos.Accepted → keygenFrom pos words = .done p q n → ValidKey p q n := by
  induction words with
  | nil => intro pos _ h; cases pos <;> cases h
  | cons w ws ih =>
    intro pos hpos h
    cases pos with
    | first =>
      rw [keygenFrom] at h
      split at h
      case isTrue hprime => exact ih (.second _) (keyPrime_cand hprime) h
      case isFalse => exact ih .first trivial h
    | second p' =>
      rw [keygenFrom] at h
      split at h
      case isTrue haccept =>
        obtain ⟨hprime, hne⟩ := Bool.and_eq_true_iff.1 haccept
        split at h
        case isTrue hinv =>
          cases h
          exact validKey_product hpos (keyPrime_cand hprime) (Ne.symm (bne_iff_ne.1 hne)) hinv
        case isFalse => exact ih .first trivial h
      case isFalse => exact ih (.second _) hpos h

/-- R88: a draw of a running command ends in no successful completion: it leaves the command running or raises an error. -/
theorem State.draw_busy_or_err (s : State) (run : Run) (hs : s.busy = true) :
    (s.draw run).busy = true ∨ (s.draw run).status.err = true := by
  obtain ⟨-, h⟩ | ⟨-, -, h⟩ | ⟨-, -, w, -, h⟩ | ⟨-, -, -, h⟩ := s.draw_cases run <;> rw [h]
  · exact .inr rfl
  · exact .inl rfl
  · exact .inl rfl
  · exact .inl hs

/-- R89, R94: a step of KEYGEN that completes with success leaves what its procedure returned. -/
theorem keygenProc_of_exec_success {s t : State} {run : Run} (h : s.seq = .running run) (hexec : exec .keygen s = .next t)
    (hbusy : t.busy = false) (herr : t.status.err = false) : keygenProc run.words = .done t.r0 t.r1 t.r2 := by
  have hstep : exec .keygen s = .next (s.proceed run (keygenProc run.words)) := congrArg _ (s.onRun_running run _ h)
  obtain rfl : s.proceed run (keygenProc run.words) = t := Host.Outcome.next.inj (hstep.symm.trans hexec)
  obtain ⟨x, y, z, hdone, hcomplete⟩ | ⟨-, hdraw⟩ := s.proceed_cases run (keygenProc run.words)
  · rw [hcomplete, hdone]
    rfl
  · rw [hdraw] at hbusy herr
    have := s.draw_busy_or_err run (s.busy_running run h)
    simp [hbusy, herr] at this

/-- R95: a step of KEYGEN that completes with success leaves a valid key. -/
theorem exec_keygen_validKey {s t : State} {run : Run} (h : s.seq = .running run) (hexec : exec .keygen s = .next t)
    (hbusy : t.busy = false) (herr : t.status.err = false) : ValidKey t.r0 t.r1 t.r2 :=
  keygenFrom_valid run.words .first trivial (keygenProc_of_exec_success h hexec hbusy herr)

/-- Settles O20: the state a successful step leaves holds what the procedure returned, and every key it returns is valid. -/
theorem keygenKeyValid : Obligations.KeygenKeyValid := by
  intro s t run h hexec hbusy herr
  have key := exec_keygen_validKey h hexec hbusy herr
  exact ⟨key.left.prime, key.right.prime, key.left.lower, key.left.upper, key.right.lower, key.right.upper, key.distinct,
    key.invertible, key.modulus, key.modulus_range.1, key.modulus_range.2⟩

end Sys2Proof.Machine
end

section
/-! ENCRYPT and DECRYPT, and the round trip for every generated key (43_rsa.md rules R97 to R99). -/

namespace Sys2Proof.Machine

open Sys2Proof

/-- R81, R97: the loop computes the exact power to the public exponent. -/
theorem modExp_publicExponent (a m : Nat) : modExp a Config.publicExponent m = a ^ 65537 % m :=
  modExp_eq a 65537 m (by decide)

/-- R97: everything the sequencer step of a running ENCRYPT can do. -/
theorem exec_encrypt_cases {run : Run} (s : State) (h : s.seq = .running run) :
    (2 ^ 32 ≤ run.op.a.toNat ∧ exec .encrypt s = .next (s.raise run .width)) ∨
    (run.op.a.toNat < 2 ^ 32 ∧ run.op.m.toNat = 0 ∧ exec .encrypt s = .next (s.raise run .badModulus)) ∨
    (run.op.a.toNat < 2 ^ 32 ∧ run.op.m.toNat ≠ 0 ∧ exec .encrypt s =
      .next (s.complete run (narrow (run.op.a.toNat ^ 65537 % run.op.m.toNat)) 0#64 0#64
        ⟨false, outOfRange run.op.a.toNat run.op.m.toNat, false⟩)) := by
  simp only [exec, execEncrypt, s.onRun_running run _ h, Bool.not_eq_true', ← Bool.not_eq_true, fitsU32_iff, word_eq_zero_iff]
  split
  case isTrue hge => exact .inl ⟨Nat.le_of_not_lt hge, rfl⟩
  case isFalse hlt =>
    rw [not_not] at hlt
    split
    case isTrue hm => exact .inr (.inl ⟨hlt, hm, rfl⟩)
    case isFalse hm =>
      rw [lowU32_eq _ hlt, modExp_publicExponent]
      exact .inr (.inr ⟨hlt, hm, rfl⟩)

/-- Settles O21: each of ENCRYPT's three steps meets its clause and contradicts the conditions of the other two. -/
theorem encryptResult : Obligations.EncryptResult := by
  refine ⟨rfl, fun s run h => ?_⟩
  obtain ⟨hge, hexec⟩ | ⟨hlt, hm, hexec⟩ | ⟨hlt, hm, hexec⟩ := exec_encrypt_cases s h
  · exact ⟨_, hexec, fun _ => s.raise_failed run .width, fun hlt => absurd hge hlt.not_ge, fun hlt => absurd hge hlt.not_ge⟩
  · exact ⟨_, hexec, fun hge => absurd hge hlt.not_ge, fun _ _ => s.raise_failed run .badModulus, fun _ hm' => absurd hm hm'⟩
  · exact ⟨_, hexec, fun hge => absurd hge hlt.not_ge, fun _ hm' => absurd hm' hm,
      fun _ _ => s.complete_completed_of_toNat run _ (narrow_mod_toNat _ hm) rfl rfl⟩

/-- R98: what the check of the pair of factors says. -/
theorem badKey_iff (p q : Nat) : badKey p q = true ↔ p < 2 ∨ q < 2 ∨ p = q := by
  simp [badKey, or_assoc]

/-- R98: `t >= 2` for a pair that is no bad key. -/
theorem two_le_totient {p q : Nat} (hp : 2 ≤ p) (hq : 2 ≤ q) (hne : p ≠ q) : 2 ≤ (p - 1) * (q - 1) := by
  obtain hp' | hq' : 2 ≤ p - 1 ∨ 2 ≤ q - 1 := by omega
  · exact Nat.mul_le_mul hp' (Nat.le_sub_one_of_lt hq)
  · exact (Nat.mul_le_mul (Nat.le_sub_one_of_lt hp) hq').trans_eq' (one_mul 2)

/-- R98: the exponent of decryption of a pair that is no bad key, when it exists. -/
theorem modInverse_exponent {p q : Nat} (hp : 2 ≤ p) (hq : 2 ≤ q) (hne : p ≠ q)
    (hinv : Nat.gcd 65537 ((p - 1) * (q - 1)) = 1) :
    1 ≤ modInverse 65537 ((p - 1) * (q - 1)) ∧ modInverse 65537 ((p - 1) * (q - 1)) < (p - 1) * (q - 1) ∧
      65537 * modInverse 65537 ((p - 1) * (q - 1)) % ((p - 1) * (q - 1)) = 1 := by
  have ht := two_le_totient hp hq hne
  obtain ⟨hlt, hmod⟩ := modInverse_spec 65537 _ (by omega) hinv
  rw [Nat.mod_eq_of_lt ht] at hmod
  refine ⟨Nat.one_le_iff_ne_zero.2 fun hzero => ?_, hlt, hmod⟩
  simp [hzero] at hmod

/-- R98: the recovered value is the exact power, since the exponent of decryption of two 32-bit factors has at most 64 bits. -/
theorem recover_eq {p q : Nat} (c : Nat) (hp : p < 2 ^ 32) (hq : q < 2 ^ 32)
    (hd : modInverse 65537 ((p - 1) * (q - 1)) < (p - 1) * (q - 1)) :
    recover p q c = c ^ modInverse 65537 ((p - 1) * (q - 1)) % (p * q) := by
  have ht : (p - 1) * (q - 1) ≤ 2 ^ 32 * 2 ^ 32 := Nat.mul_le_mul (by omega) (by omega)
  exact modExp_eq _ _ _ (hd.trans_le ht)

/-- R98: everything the sequencer step of a running DECRYPT can do, with `p` and `q` in A and B. -/
theorem exec_decrypt_cases {run : Run} (s : State) {p q : Nat} (h : s.seq = .running run) (hA : p = run.op.a.toNat)
    (hB : q = run.op.b.toNat) :
    ((2 ^ 32 ≤ p ∨ 2 ^ 32 ≤ q) ∧ exec .decrypt s = .next (s.raise run .width)) ∨
    (p < 2 ^ 32 ∧ q < 2 ^ 32 ∧ (p < 2 ∨ q < 2 ∨ p = q) ∧ exec .decrypt s = .next (s.raise run .badKey)) ∨
    (p < 2 ^ 32 ∧ q < 2 ^ 32 ∧ 2 ≤ p ∧ 2 ≤ q ∧ p ≠ q ∧ Nat.gcd 65537 ((p - 1) * (q - 1)) ≠ 1 ∧
      exec .decrypt s = .next (s.raise run .noPrivateExp)) ∨
    (p < 2 ^ 32 ∧ q < 2 ^ 32 ∧ 2 ≤ p ∧ 2 ≤ q ∧ p ≠ q ∧ Nat.gcd 65537 ((p - 1) * (q - 1)) = 1 ∧
      exec .decrypt s =
        .next (s.complete run (narrow (recover p q run.op.c.toNat % 2 ^ 32)) (narrow (recover p q run.op.c.toNat)) 0#64
          ⟨false, false, truncated (recover p q run.op.c.toNat)⟩)) := by
  subst hA hB
  simp only [exec, execDecrypt, s.onRun_running run _ h, Bool.not_eq_true', ← Bool.not_eq_true, Bool.and_eq_true, fitsU32_iff]
  split
  case isTrue hwide => exact .inl ⟨by omega, rfl⟩
  case isFalse hfit =>
    obtain ⟨ha, hb⟩ := not_not.1 hfit
    simp only [lowU32_eq _ ha, lowU32_eq _ hb, badKey_iff, exponentInvertible_iff]
    split
    case isTrue hbad => exact .inr (.inl ⟨ha, hb, hbad, rfl⟩)
    case isFalse hgood =>
      have hp2 : 2 ≤ run.op.a.toNat := by omega
      have hq2 : 2 ≤ run.op.b.toNat := by omega
      have hne : run.op.a.toNat ≠ run.op.b.toNat := by omega
      split
      case isTrue hinv => exact .inr (.inr (.inl ⟨ha, hb, hp2, hq2, hne, hinv, rfl⟩))
      case isFalse hinv => exact .inr (.inr (.inr ⟨ha, hb, hp2, hq2, hne, not_not.1 hinv, rfl⟩))

/-- R98: the recovered value fits a register. -/
theorem recover_lt {p q : Nat} (c : Nat) (hp2 : 2 ≤ p) (hq2 : 2 ≤ q) (hp : p < 2 ^ 32) (hq : q < 2 ^ 32)
    (hd : modInverse 65537 ((p - 1) * (q - 1)) < (p - 1) * (q - 1)) : recover p q c < 2 ^ 64 := by
  rw [recover_eq c hp hq hd]
  calc _ < p * q := Nat.mod_lt _ (by positivity)
    _ < 2 ^ 32 * 2 ^ 32 := Nat.mul_lt_mul'' hp hq

/-- Settles O22: each of DECRYPT's four steps meets its clause and contradicts the conditions of the other three; the exponent of decryption is
`modInverse`. -/
theorem decryptResult : Obligations.DecryptResult := by
  refine ⟨rfl, fun s run p q h hA hB => ?_⟩
  obtain ⟨hwide, hexec⟩ | ⟨hp, hq, hbad, hexec⟩ | ⟨hp, hq, hp2, hq2, hne, hinv, hexec⟩ | ⟨hp, hq, hp2, hq2, hne, hinv, hexec⟩ :=
    exec_decrypt_cases s h hA hB
  · exact ⟨_, hexec, fun _ => s.raise_failed run .width, by omega, by omega, by omega⟩
  · exact ⟨_, hexec, by omega, fun _ _ _ => s.raise_failed run .badKey, by omega, by omega⟩
  · exact ⟨_, hexec, by omega, by omega, fun _ _ _ _ _ _ => s.raise_failed run .noPrivateExp, fun _ _ _ _ _ hinv' => absurd hinv' hinv⟩
  · refine ⟨_, hexec, by omega, by omega, fun _ _ _ _ _ hinv' => absurd hinv hinv', fun _ _ _ _ _ _ => ?_⟩
    obtain ⟨hpos, hlt, hmod⟩ := modInverse_exponent hp2 hq2 hne hinv
    have hy := recover_lt run.op.c.toNat hp2 hq2 hp hq hlt
    refine ⟨_, _, hpos, hlt, hmod, recover_eq _ hp hq hlt, ?_⟩
    exact s.complete_completed_of_toNat run _ (narrow_toNat _ ((Nat.mod_le _ _).trans_lt hy)) (narrow_toNat _ hy) rfl

/-- R99: Fermat's little theorem for every base, a multiple of the prime included. -/
theorem pow_modEq_self_of_prime {p e : Nat} (a : Nat) (hp : Nat.Prime p) (hpos : 1 ≤ e) (he : e ≡ 1 [MOD p - 1]) :
    a ^ e ≡ a [MOD p] := by
  obtain ⟨k, hk⟩ := (Nat.modEq_iff_dvd' hpos).1 he.symm
  obtain rfl : e = (p - 1) * k + 1 := by omega
  by_cases hdvd : p ∣ a
  · exact (Nat.modEq_zero_iff_dvd.2 (hdvd.pow (Nat.succ_ne_zero _))).trans (Nat.modEq_zero_iff_dvd.2 hdvd).symm
  · have hone : a ^ (p - 1) ≡ 1 [MOD p] := Nat.ModEq.pow_card_sub_one_eq_one hp (hp.coprime_iff_not_dvd.2 hdvd).symm
    calc a ^ ((p - 1) * k + 1) = (a ^ (p - 1)) ^ k * a := by rw [pow_succ, pow_mul]
      _ ≡ 1 ^ k * a [MOD p] := (hone.pow k).mul_right a
      _ = a := by rw [one_pow, one_mul]

/-- R99: the correctness of RSA. Exponents inverse modulo `(p - 1) (q - 1)` undo each other modulo `p q`, for every message below it. -/
theorem rsa_correct {p q e d m : Nat} (hp : Nat.Prime p) (hq : Nat.Prime q) (hne : p ≠ q) (hed : e * d % ((p - 1) * (q - 1)) = 1)
    (hm : m < p * q) : (m ^ e % (p * q)) ^ d % (p * q) = m := by
  have hmod : e * d ≡ 1 [MOD (p - 1) * (q - 1)] := (Nat.mod_modEq _ _).symm.trans (by rw [hed])
  have hpos : 1 ≤ e * d := Nat.one_le_iff_ne_zero.2 fun hzero => by simp [hzero] at hed
  have hpow : m ^ (e * d) ≡ m [MOD p * q] :=
    (Nat.modEq_and_modEq_iff_modEq_mul ((Nat.coprime_primes hp hq).2 hne)).1
      ⟨pow_modEq_self_of_prime m hp hpos hmod.of_mul_right, pow_modEq_self_of_prime m hq hpos hmod.of_mul_left⟩
  calc (m ^ e % (p * q)) ^ d % (p * q) = m ^ (e * d) % (p * q) := by rw [← Nat.pow_mod, pow_mul]
    _ = m % (p * q) := hpow
    _ = m := Nat.mod_eq_of_lt hm

/-- R99: the step of ENCRYPT under a valid key, for a message of 32 bits. -/
theorem exec_encrypt_validKey {s : State} {run : Run} {p q : Word} (key : ValidKey p q run.op.m) (h : s.seq = .running run)
    (hmsg : run.op.a.toNat < 2 ^ 32) :
    ∃ t, exec .encrypt s = .next t ∧ Completed s t run (run.op.a.toNat ^ 65537 % (p.toNat * q.toNat)) 0 0 false false false := by
  obtain ⟨t, hexec, -, -, hdone⟩ := encryptResult.2 s run h
  have hlt := key.message_lt hmsg
  have hdone := hdone hmsg (Nat.ne_zero_of_lt hlt)
  rw [decide_eq_false (Nat.not_le_of_lt hlt), key.modulus] at hdone
  exact ⟨t, hexec, hdone⟩

/-- R99: the step of DECRYPT under a valid key, for the ciphertext of a message of 32 bits. -/
theorem exec_decrypt_validKey {s : State} {run : Run} {n : Word} {m : Nat} (key : ValidKey run.op.a run.op.b n)
    (h : s.seq = .running run) (hm : m < 2 ^ 32) (hc : run.op.c.toNat = m ^ 65537 % (run.op.a.toNat * run.op.b.toNat)) :
    ∃ t, exec .decrypt s = .next t ∧ Completed s t run m m 0 false false false := by
  obtain ⟨t, hexec, -, -, -, hdone⟩ := decryptResult.2 s run _ _ h rfl rfl
  have hne : run.op.a.toNat ≠ run.op.b.toNat := mt BitVec.eq_of_toNat_eq key.distinct
  obtain ⟨d, y, -, -, hd, hy, hdone⟩ := hdone key.left.upper key.right.upper key.left.prime.two_le key.right.prime.two_le hne
    key.invertible
  have hn : m < run.op.a.toNat * run.op.b.toNat := key.modulus ▸ key.message_lt hm
  obtain rfl : y = m := by rw [hy, hc, rsa_correct key.left.prime key.right.prime hne hd hn]
  rw [Nat.mod_eq_of_lt hm, decide_eq_false (Nat.not_le_of_lt hm)] at hdone
  exact ⟨t, hexec, hdone⟩

/-- Settles O23: KEYGEN leaves a valid key, under which ENCRYPT and DECRYPT are inverse powers. -/
theorem rsaRoundTrip : Obligations.RsaRoundTrip := by
  intro sk tk runk hk hexec hbusy herr msg se rune hmsg he hA hM
  have key := exec_keygen_validKey hk hexec hbusy herr
  subst hA
  obtain ⟨te, hexece, hte⟩ := exec_encrypt_validKey (hM.symm ▸ key) he hmsg
  refine ⟨te, hexece, hte.busy, hte.done, hte.err, hte.oor, fun sd rund hd hP hQ hC => ?_⟩
  rw [← hP, ← hQ] at key hte
  obtain ⟨td, hexecd, htd⟩ := exec_decrypt_validKey key hd hmsg (hC ▸ hte.r0)
  exact ⟨td, hexecd, htd.busy, htd.done, htd.err, BitVec.eq_of_toNat_eq htd.r0, BitVec.eq_of_toNat_eq htd.r1, htd.trunc⟩

end Sys2Proof.Machine
end

section
/-! The interrupt output: the level IRQ_EN & DONE, what raises it and what lowers it (60_exceptions.md rule R106). -/

namespace Sys2Proof.Machine

open Sys2Proof

/-- R106: while DONE is 1 the output is IRQ_EN. -/
theorem State.irq_of_done {s : State} (h : s.status.done = true) : s.irq = s.ctrl.irqEn := by
  rw [State.irq, h, Bool.and_true]

/-- R106: the output is low while DONE is 0. -/
theorem State.irq_of_not_done {s : State} (h : s.status.done = false) : s.irq = false := by
  rw [State.irq, h, Bool.and_false]

/-- R106: the output after a write of IRQ_EN. -/
theorem State.setCtrl_irq (s : State) (v : Word) : (s.setCtrl v).irq = (v.getLsbD 9 && s.status.done) := rfl

/-- R35, R106: the output as the host reads it, from bit 9 of CTRL and bit 1 of STATUS. -/
theorem State.irq_eq_memRead (s : State) :
    s.irq = ((s.memRead 0x10 8).data.getLsbD 9 && (s.memRead 0x18 8).data.getLsbD 1) := by
  have hctrl : (s.memRead 0x10 8).data = s.ctrlWord := congrArg BusReply.data (s.memRead_whole 0x10 rfl)
  have hstatus : (s.memRead 0x18 8).data = s.statusWord := congrArg BusReply.data (s.memRead_whole 0x18 rfl)
  rw [hctrl, hstatus, s.ctrlWord_getLsbD, s.statusWord_getLsbD]
  simp [State.irq]

/-- R105: a write of STATUS that presents bits [31:0] acknowledges. -/
theorem State.memWrite_status_low {off bytes : Nat} (s : State) (v : Word) (ha : accessAdmitted off bytes = true)
    (hr : regAt off = some .status) (hl : presentsLow off = true) : s.memWrite off bytes v = s.acknowledge v :=
  (s.memWrite_of_regAt v ha hr).trans (if_pos hl)

/-- R115: a write of CTRL with SRST resets and then writes ENT_SRC and IRQ_EN. -/
theorem State.writeCtrl_srst (s : State) {v : Word} (hsrst : v.getLsbD 1 = true) : s.writeCtrl v = s.hardReset.setCtrl v := by
  rw [State.writeCtrl, if_pos hsrst]

/-- R19, R75: a write of CTRL without SRST that ends no command, ABORT being 0 or the sequencer IDLE, writes ENT_SRC and IRQ_EN alone. -/
theorem State.writeCtrl_of_no_abort (s : State) {v : Word} (hsrst : v.getLsbD 1 = false) (h : v.getLsbD 0 = false ∨ s.busy = false) :
    s.writeCtrl v = s.setCtrl v := by
  obtain ⟨hsrst', -⟩ | ⟨-, hwrite⟩ | ⟨-, habort, run, hrun, -⟩ := s.writeCtrl_cases v
  · exact absurd (hsrst.symm.trans hsrst') Bool.false_ne_true
  · exact hwrite
  · exact absurd h (by simp [habort, s.busy_running run hrun])

/-- R88: a draw of a running command leaves it running or exhausts its retries. -/
theorem State.draw_busy_or_raise (s : State) (run : Run) (hs : s.busy = true) :
    (s.draw run).busy = true ∨ s.draw run = s.raise run .retryExhausted := by
  obtain ⟨-, h⟩ | ⟨-, -, h⟩ | ⟨-, -, w, -, h⟩ | ⟨-, -, -, h⟩ := s.draw_cases run
  · exact .inr h
  · exact .inl (h ▸ rfl)
  · exact .inl (h ▸ rfl)
  · exact .inl (h.symm ▸ hs)

/-- R69, R70, R73: a sequencer step that ends a command is a completion, which sets DONE; CTRL is the host's. -/
theorem exec_completion_sets_done {s t : State} {i : Instr} (hs : s.busy = true) (hexec : exec i s = .next t) (ht : t.busy = false) :
    t.status.done = true ∧ t.ctrl = s.ctrl := by
  obtain ⟨run, hrun⟩ := s.busy_iff.1 hs
  obtain ⟨-, h⟩ | ⟨code, -, h⟩ | ⟨x, y, z, f, h, -⟩ | ⟨-, -, h⟩ := exec_running i s run hrun <;>
    obtain rfl := Host.Outcome.next.inj (h.symm.trans hexec)
  · exact ⟨rfl, rfl⟩
  · exact ⟨rfl, rfl⟩
  · exact ⟨rfl, rfl⟩
  · obtain hbusy | hraise := s.draw_busy_or_raise run hs
    · exact absurd hbusy (by simp [ht])
    · rw [hraise]
      exact ⟨rfl, rfl⟩

/-- R105, R106: an acknowledgement of DONE leaves the output low. -/
theorem State.acknowledge_irq (s : State) {v : Word} (h : v.getLsbD 1 = true) : (s.acknowledge v).irq = false :=
  State.irq_of_not_done (by simp [h])

/-- R75, R106: the abort of a running command leaves the output at IRQ_EN. -/
theorem State.abort_irq (s : State) (hs : s.busy = true) : s.abort.irq = s.ctrl.irqEn := by
  obtain ⟨run, hrun⟩ := s.busy_iff.1 hs
  rw [s.abort_running hrun]
  exact State.irq_of_done rfl

/-- Settles O43: DONE is 1 after every completion and 0 after an acknowledgement, an issue and a reset, and a write of CTRL is one of SRST, ABORT of
a running command, and the write of ENT_SRC and IRQ_EN alone. -/
theorem interruptLevel : Obligations.InterruptLevel := by
  refine ⟨State.irq_eq_memRead, fun s bytes v hbytes hack => ?_, fun s w hbusy => ?_, fun s t i hs hexec ht => ?_,
    fun s bytes v hbytes => ?_, fun s => State.irq_of_not_done rfl⟩
  · rw [s.memWrite_status_low v (accessAdmitted_of_aligned rfl hbytes) rfl rfl]
    exact s.acknowledge_irq hack
  · rw [s.deliverCmd_of_not_busy w hbusy]
    exact State.irq_of_not_done rfl
  · obtain ⟨hdone, hctrl⟩ := exec_completion_sets_done hs hexec ht
    rw [State.irq_of_done hdone, hctrl]
  · rw [s.memWrite_ctrl_low v (accessAdmitted_of_aligned rfl hbytes) rfl rfl]
    refine ⟨fun hsrst => ?_, fun hsrst habort hbusy => ?_, fun hsrst hnone => ?_⟩
    · rw [s.writeCtrl_srst hsrst]
      exact State.irq_of_not_done rfl
    · rw [s.writeCtrl_abort habort hsrst]
      exact (s.setCtrl v).abort_irq hbusy
    · rw [s.writeCtrl_of_no_abort hsrst hnone]
      exact s.setCtrl_irq v

end Sys2Proof.Machine
end

section
/-! The effect of a turn: what one turn can leave of the state, with a case for each thing it can be (20_memory.md rule R48). The invariants of
the whole machine are derived from it. -/

namespace Sys2Proof.Machine

open Sys2Proof

/-- R16: the offsets of a register are those of its eight bytes. -/
theorem Reg.offset_eq_of_regAt {off : Nat} {r : Reg} (h : regAt off = some r) : r.offset = off / 8 * 8 := by
  unfold regAt at h
  split at h <;> cases h <;> rename_i hq <;> rw [hq] <;> rfl

/-- R44: the one offset of a register at which an access presents bits [31:0] is that of its first byte. -/
theorem eq_offset_of_presentsLow {off : Nat} {r : Reg} (hr : regAt off = some r) (hl : presentsLow off = true) : off = r.offset := by
  have haligned : off % 8 = 0 := beq_iff_eq.1 hl
  rw [Reg.offset_eq_of_regAt hr]
  omega

/-- R42 to R46: everything a host access that goes on can leave of RSACORE while `rst` is released. -/
inductive HostEffect (s : State) : BusAccess → State → Prop
  /-- R43: a read. -/
  | answered {access : BusAccess} (off bytes : Nat) : HostEffect s access (s.afterRead off bytes)
  /-- R22, R26, R44: a write that no register takes. -/
  | ignored {access : BusAccess} : HostEffect s access s
  /-- R44: a write of RETRY_LIMIT, A, B, M or C. -/
  | operand {access : BusAccess} (limit a b m c : Word) :
    HostEffect s access { s with retryLimit := limit, a := a, b := b, m := m, c := c }
  /-- R22: a write of SEED. -/
  | seeded {access : BusAccess} (hidle : s.busy = false) (x : Word) : HostEffect s access { s with seed := x }
  /-- R105: a write of STATUS. -/
  | acknowledged {addr bytes : Nat} {v : Word} (hstatus : windowOffset addr = some 0x18) :
    HostEffect s (.write addr bytes v) (s.acknowledge v)
  /-- R66: a command word while BUSY = 1. -/
  | dropped {addr bytes : Nat} {v : Word} (hcmd : windowOffset addr = some 0x08) (hbusy : s.busy = true) :
    HostEffect s (.write addr bytes v) { s with status := { s.status with cmdOvr := true } }
  /-- R65: a command word while BUSY = 0. -/
  | issued {access : BusAccess} (hidle : s.busy = false) (w : Word32) : HostEffect s access (s.issue w)
  /-- R19: a write of CTRL that neither resets nor ends a command. -/
  | configured {access : BusAccess} (v : Word) : HostEffect s access (s.setCtrl v)
  /-- R115: SRST. -/
  | softReset {addr bytes : Nat} {v : Word} (hctrl : windowOffset addr = some 0x10) (hsrst : v.getLsbD 1 = true) :
    HostEffect s (.write addr bytes v) (s.hardReset.setCtrl v)
  /-- R75: ABORT of a running command. -/
  | aborted {addr bytes : Nat} {v : Word} {run : Run} (hctrl : windowOffset addr = some 0x10) (habort : v.getLsbD 0 = true)
    (hs : s.seq = .running run) : HostEffect s (.write addr bytes v) ((s.setCtrl v).raise run .aborted)

/-- R44: the effect of a write at an offset of the window. -/
theorem State.memWrite_effect {addr off : Nat} (s : State) (bytes : Nat) (v : Word) (hw : windowOffset addr = some off) :
    HostEffect s (.write addr bytes v) (s.memWrite off bytes v) := by
  obtain h | ⟨x, h | h | h | h | h⟩ | ⟨hidle, x, h⟩ | ⟨hr, hl, h⟩ | ⟨hr, hl, h⟩ | ⟨hr, hl, h⟩ := s.memWrite_cases off bytes v <;> rw [h]
  · exact .ignored
  · exact .operand x s.a s.b s.m s.c
  · exact .operand s.retryLimit x s.b s.m s.c
  · exact .operand s.retryLimit s.a x s.m s.c
  · exact .operand s.retryLimit s.a s.b x s.c
  · exact .operand s.retryLimit s.a s.b s.m x
  · exact .seeded hidle x
  · exact .acknowledged (hw.trans (congrArg some (eq_offset_of_presentsLow hr hl)))
  · obtain ⟨hbusy, hd⟩ | ⟨hidle, hd⟩ := s.deliverCmd_cases (v.extractLsb' 0 32) <;> rw [hd]
    · exact .dropped (hw.trans (congrArg some (eq_offset_of_presentsLow hr hl))) hbusy
    · exact .issued hidle _
  · have hctrl : windowOffset addr = some 0x10 := hw.trans (congrArg some (eq_offset_of_presentsLow hr hl))
    obtain ⟨hsrst, hc⟩ | ⟨-, hc⟩ | ⟨-, habort, run, hs, hc⟩ := s.writeCtrl_cases v <;> rw [hc]
    · exact .softReset hctrl hsrst
    · exact .configured v
    · exact .aborted hctrl habort hs

/-- R46: the effect of a host access that goes on. -/
theorem State.hostAccess_effect {s t : State} {access : BusAccess} (h : s.hostAccess access = .next t) : HostEffect s access t := by
  obtain ⟨off, hw, ⟨addr, bytes, rfl, -, rfl⟩ | ⟨addr, bytes, v, rfl, -, rfl⟩⟩ := s.hostAccess_next t access h
  · exact .answered off bytes
  · exact s.memWrite_effect bytes v hw

/-- No host access moves the reset line or reads the turns to come (R114). -/
theorem HostEffect.rst_eq {s t : State} {access : BusAccess} (h : HostEffect s access t) : t.rst = s.rst ∧ t.inbox = s.inbox := by
  cases h <;> exact ⟨rfl, rfl⟩

/-- R68, R89: everything a step of a running command can leave, but for the draw that still waits for its word. -/
inductive CommandEffect (s : State) (run : Run) : State → Prop
  /-- R73: the completion of NOP. -/
  | nop (hop : run.op.op = .nop) : CommandEffect s run s.completeNop
  /-- R70: an error completion. -/
  | failed (code : ErrCode) (hcode : code ≠ .none) : CommandEffect s run (s.raise run code)
  /-- R69, R71: a successful completion. -/
  | completed (x y z : Word) (f : Flags) (hflag : f.flag = true → run.op.op = .modinv ∨ run.op.op = .primetest)
    (hoor : f.oor = true → run.op.op = .encrypt) (htrunc : f.trunc = true → run.op.op = .decrypt) :
    CommandEffect s run (s.complete run x y z f)
  /-- R88: a draw below the cap, of the internal generator's word or of a delivered one. -/
  | drew (w : Word32) (seed : Word) (hneeded : wantsWord run.op.op run.words = true)
    (hcap : run.op.capReached run.words.length = false)
    (hinternal : run.op.src = true → seed = (splitmixNext s.seed).1 ∧ w = (splitmixNext s.seed).2) :
    CommandEffect s run { s with seed := seed, seq := .running (Run.after run.op (run.words ++ [w])) }

/-- R88: when a running command waits for a word of the entropy port, the cap not reached. -/
theorem Run.after_request_iff (op : Snapshot) (words : List Word32) : (Run.after op words).request = true ↔
    op.src = false ∧ op.capReached words.length = false ∧ wantsWord op.op words = true := by
  simp [Run.after, and_assoc]

/-- R68, R88: a sequencer step of a running command has an effect, or it is a draw whose word is still awaited and changes nothing. -/
theorem exec_effect {s t : State} {run : Run} (hs : s.seq = .running run) (h : exec run.op.op s = .next t) :
    CommandEffect s run t ∨ (t = s ∧ run.port = none ∧ (Run.after run.op run.words).request = true) := by
  obtain ⟨hop, e⟩ | ⟨code, hcode, e⟩ | ⟨x, y, z, f, e, hflag, hoor, htrunc⟩ | ⟨-, hneeded, e⟩ := exec_running run.op.op s run hs <;>
    obtain rfl := Host.Outcome.next.inj (e.symm.trans h)
  · exact .inl (.nop hop)
  · exact .inl (.failed code hcode)
  · exact .inl (.completed x y z f hflag hoor htrunc)
  · obtain ⟨-, hd⟩ | ⟨hcap, -, hd⟩ | ⟨hcap, hsrc, w, -, hd⟩ | ⟨hcap, hsrc, hport, hd⟩ := s.draw_cases run
    · exact .inl (hd ▸ .failed _ (by decide))
    · exact .inl (hd ▸ .drew _ _ hneeded hcap fun _ => ⟨rfl, rfl⟩)
    · exact .inl (hd ▸ .drew w s.seed hneeded hcap fun hsrc' => absurd hsrc' (by simp [hsrc]))
    · exact .inr ⟨hd, hport, (Run.after_request_iff _ _).2 ⟨hsrc, hcap, hneeded⟩⟩

/-- R86: the effect of a command's step does not tell whether the request was outstanding and a word on the port. -/
theorem CommandEffect.of_port {s t : State} {run : Run} {request : Bool} {port : Option Word32}
    (h : CommandEffect { s with seq := .running { run with request := request, port := port } } { run with request := request, port := port } t) :
    CommandEffect s run t := by
  cases h with
  | nop hop => exact .nop hop
  | failed code hcode => exact .failed code hcode
  | completed x y z f hflag hoor htrunc => exact .completed x y z f hflag hoor htrunc
  | drew w seed hneeded hcap hinternal => exact .drew w seed hneeded hcap hinternal

/-- No command moves the reset line or reads the turns to come (R114). -/
theorem CommandEffect.rst_eq {s t : State} {run : Run} (h : CommandEffect s run t) : t.rst = s.rst ∧ t.inbox = s.inbox := by
  cases h <;> exact ⟨rfl, rfl⟩

/-- R68: the turn of a sequencer with a running command. -/
theorem State.turn_sequencer_effect {s t : State} {run : Run} (hr : s.rst = false) (hs : s.seq = .running run)
    (h : s.turn .sequencer = .next t) :
    CommandEffect s run t ∨ (t = s ∧ run.port = none ∧ (Run.after run.op run.words).request = true) := by
  refine exec_effect hs ?_
  simpa [State.turn, hr, State.liveTurn, State.sequencerTurn, hs] using h

/-- R86, R88: the delivery of a word that is requested is a step of the running command. -/
theorem State.turn_entropy_effect {s t : State} {run : Run} {w : Word32} (hr : s.rst = false) (hs : s.seq = .running run)
    (hq : run.request = true) (h : s.turn (.entropy w) = .next t) : CommandEffect s run t := by
  have hexec : exec run.op.op { s with seq := .running { run with request := false, port := some w } } = .next t := by
    simpa [State.turn, hr, State.liveTurn, State.entropyTurn, hs, hq] using h
  obtain heffect | ⟨-, hport, -⟩ := exec_effect (run := { run with request := false, port := some w }) rfl hexec
  · exact heffect.of_port
  · cases hport

/-- R14, R114: everything a turn that goes on can leave. -/
inductive TurnEffect (s : State) : Turn → State → Prop
  /-- R114: a turn of another agent while `rst` is asserted. -/
  | held {turn : Turn} (hr : s.rst = true) (hturn : ∀ level, turn ≠ .reset level) (data : Word) (reads : Nat) :
    TurnEffect s turn { s with busData := data, freeReads := reads }.hardReset
  /-- R114: the reset input asserts `rst`, holds it or releases it. -/
  | reset {level : Bool} (hr : s.rst = true ∨ level = true) : TurnEffect s (.reset level) { s with rst := level }.hardReset
  /-- R114: the reset input leaves `rst` released. -/
  | released (hr : s.rst = false) : TurnEffect s (.reset false) s
  /-- R46: a host access. -/
  | host {access : BusAccess} {t : State} (hr : s.rst = false) (h : HostEffect s access t) : TurnEffect s (.host access) t
  /-- R113, log 3: a turn of the sequencer or the entropy source that is not enabled. -/
  | stayed {turn : Turn} (hr : s.rst = false) (hturn : turn = .sequencer ∨ ∃ w, turn = .entropy w) : TurnEffect s turn s
  /-- R68: a step of a running command. -/
  | command {turn : Turn} {run : Run} {t : State} (hr : s.rst = false) (hturn : turn = .sequencer ∨ ∃ w, turn = .entropy w)
    (hs : s.seq = .running run) (h : CommandEffect s run t) : TurnEffect s turn t

/-- R114: the effect of a turn while `rst` is asserted. -/
theorem State.resetTurn_effect {s t : State} {turn : Turn} (hr : s.rst = true) (h : s.resetTurn turn = .next t) :
    TurnEffect s turn t := by
  cases turn with
  | host access =>
    cases haccess : s.hardReset.hostAccess access with
    | next u =>
      obtain rfl : u.hardReset = t := by simpa [State.resetTurn, haccess, heldInReset] using h
      obtain ⟨hrst, hinbox⟩ := (State.hostAccess_effect haccess).rst_eq
      have hu : u.hardReset = { s with busData := u.busData, freeReads := u.freeReads }.hardReset := by
        simp [State.hardReset, hrst, hinbox]
      rw [hu]
      exact .held hr (by simp) u.busData u.freeReads
    | fault r => simp [State.resetTurn, haccess, heldInReset] at h
    | refused r => simp [State.resetTurn, haccess, heldInReset] at h
  | sequencer =>
    obtain rfl := Host.Outcome.next.inj h
    exact .held hr (by simp) s.busData s.freeReads
  | entropy w =>
    obtain rfl := Host.Outcome.next.inj h
    exact .held hr (by simp) s.busData s.freeReads
  | reset level =>
    obtain rfl := Host.Outcome.next.inj h
    exact .reset (.inl hr)

/-- R14: the effect of a turn that goes on. -/
theorem State.turn_effect {s t : State} {turn : Turn} (h : s.turn turn = .next t) : TurnEffect s turn t := by
  cases hr : s.rst with
  | true => exact State.resetTurn_effect hr (by simpa [State.turn, hr] using h)
  | false =>
    have hlive : s.liveTurn turn = .next t := by simpa [State.turn, hr] using h
    cases turn with
    | host access => exact .host hr (State.hostAccess_effect hlive)
    | sequencer =>
      cases hs : s.seq with
      | idle =>
        obtain rfl : s = t := by simpa [State.liveTurn, State.sequencerTurn, hs] using hlive
        exact .stayed hr (.inl rfl)
      | running run =>
        obtain heffect | ⟨rfl, -⟩ := State.turn_sequencer_effect hr hs h
        · exact .command hr (.inl rfl) hs heffect
        · exact .stayed hr (.inl rfl)
    | entropy w =>
      cases hs : s.seq with
      | idle =>
        obtain rfl : s = t := by simpa [State.liveTurn, State.entropyTurn, hs] using hlive
        exact .stayed hr (.inr ⟨w, rfl⟩)
      | running run =>
        cases hq : run.request with
        | false =>
          obtain rfl : s = t := by simpa [State.liveTurn, State.entropyTurn, hs, hq] using hlive
          exact .stayed hr (.inr ⟨w, rfl⟩)
        | true => exact .command hr (.inr ⟨w, rfl⟩) hs (State.turn_entropy_effect hr hs hq h)
    | reset level =>
      cases level with
      | false =>
        obtain rfl := Host.Outcome.next.inj hlive
        exact .released hr
      | true =>
        obtain rfl := Host.Outcome.next.inj hlive
        exact .reset (.inr rfl)

/-- R48: a step takes the first turn of the inbox, or the sequencer's turn from an empty one (log 2), with that turn's effect. -/
theorem step_effect {s t : State} (h : step s = .next t) : ∃ turn rest,
    (s.inbox = turn :: rest ∨ s.inbox = [] ∧ turn = .sequencer) ∧ TurnEffect (s.withInbox rest) turn t := by
  cases hi : s.inbox with
  | nil =>
    have hsame : s.withInbox [] = s := by rw [State.withInbox, ← hi]
    rw [step_nil s hi] at h
    exact ⟨.sequencer, [], .inr ⟨rfl, rfl⟩, hsame.symm ▸ State.turn_effect h⟩
  | cons turn rest =>
    rw [step_cons s turn rest hi] at h
    exact ⟨turn, rest, .inl rfl, State.turn_effect h⟩

end Sys2Proof.Machine
end

section
/-! The codec: words and their instructions, bytes and their words (30_encoding.md rules R54, R57, R59; 20_memory.md rule R41). -/

namespace Sys2Proof.Machine

open Sys2Proof

/-- R41: a word's four bytes, put together again, are the word. -/
theorem wordOfBytes_bytes (w : Word32) :
    wordOfBytes (w.extractLsb' 0 8) (w.extractLsb' 8 8) (w.extractLsb' 16 8) (w.extractLsb' 24 8) = w := by
  unfold wordOfBytes
  rw [BitVec.extractLsb'_append_extractLsb'_eq_extractLsb' (by rfl), BitVec.extractLsb'_append_extractLsb'_eq_extractLsb' (by rfl),
    BitVec.extractLsb'_append_extractLsb'_eq_extractLsb' (by rfl)]
  exact BitVec.extractLsb'_eq_self

/-- R41, R59: from the bytes of a word the decoder reads the word's instruction and leaves the bytes after it. -/
theorem decodeBytes_bytesOfWord (w : Word32) (rest : List Byte) : decodeBytes (bytesOfWord w ++ rest) = .ok (decodeWord w, rest) := by
  simp [bytesOfWord, decodeBytes, wordOfBytes_bytes]

/-- Settles O2: the word of a well-formed instruction decodes to it, and the bytes of a word decode as the word. -/
theorem decodeOfEncode : Obligations.DecodeOfEncode := fun i hwf =>
  ⟨decodeWord_encode hwf, fun rest => by rw [encodeBytes, decodeBytes_bytesOfWord, decodeWord_encode hwf]⟩

/-- R57, R59: a word that is not illegal is the word of one of the nine commands. -/
theorem exists_encode_of_legal {w : Word32} (h : ¬ wordIllegal w = true) :
    ∃ i : Instr, i.wellFormed = true ∧ (∀ v, i ≠ .illegal v) ∧ encode i = w := by
  have hlt : w.toNat < 9 := by
    rw [wordIllegal_iff] at h
    omega
  interval_cases hn : w.toNat
  · exact ⟨.nop, rfl, by simp, BitVec.eq_of_toNat_eq hn.symm⟩
  · exact ⟨.modmul, rfl, by simp, BitVec.eq_of_toNat_eq hn.symm⟩
  · exact ⟨.modexp, rfl, by simp, BitVec.eq_of_toNat_eq hn.symm⟩
  · exact ⟨.modinv, rfl, by simp, BitVec.eq_of_toNat_eq hn.symm⟩
  · exact ⟨.primetest, rfl, by simp, BitVec.eq_of_toNat_eq hn.symm⟩
  · exact ⟨.primegen, rfl, by simp, BitVec.eq_of_toNat_eq hn.symm⟩
  · exact ⟨.keygen, rfl, by simp, BitVec.eq_of_toNat_eq hn.symm⟩
  · exact ⟨.encrypt, rfl, by simp, BitVec.eq_of_toNat_eq hn.symm⟩
  · exact ⟨.decrypt, rfl, by simp, BitVec.eq_of_toNat_eq hn.symm⟩

/-- R59: every word is the word of a well-formed instruction, ILLEGAL exactly when the word is illegal. -/
theorem exists_encode (w : Word32) :
    ∃ i : Instr, i.wellFormed = true ∧ encode i = w ∧ (i = .illegal w ↔ wordIllegal w = true) := by
  by_cases h : wordIllegal w = true
  · exact ⟨.illegal w, h, rfl, iff_of_true rfl h⟩
  · obtain ⟨i, hwf, hlegal, hw⟩ := exists_encode_of_legal h
    exact ⟨i, hwf, hw, iff_of_false (hlegal w) h⟩

/-- R59: the word of what a word decodes to. -/
theorem encode_decodeWord (w : Word32) : encode (decodeWord w) = w := by
  obtain ⟨i, hwf, rfl, -⟩ := exists_encode w
  rw [decodeWord_encode hwf]

/-- R59: a decoded instruction is well-formed. -/
theorem decodeWord_wellFormed (w : Word32) : (decodeWord w).wellFormed = true := by
  obtain ⟨i, hwf, rfl, -⟩ := exists_encode w
  rwa [decodeWord_encode hwf]

/-- R59: the words that decode to ILLEGAL. -/
theorem decodeWord_eq_illegal_iff (w : Word32) : decodeWord w = .illegal w ↔ w.toNat / 16 ≠ 0 ∨ 9 ≤ w.toNat % 16 := by
  obtain ⟨i, hwf, rfl, hillegal⟩ := exists_encode w
  rw [decodeWord_encode hwf, hillegal, wordIllegal_iff]

/-- Settles O3: every word is the word of a well-formed instruction, which is what it decodes to. -/
theorem encodeOfDecode : Obligations.EncodeOfDecode := fun w =>
  ⟨encode_decodeWord w, decodeWord_wellFormed w, decodeWord_eq_illegal_iff w⟩

end Sys2Proof.Machine
end

section
/-! The invariant: it holds at reset, and every effect of a turn keeps it (10_state.md rules R28, R30 to R34; 40_control.md rules R65 to R71;
42_prime.md rules R88, R89; 60_exceptions.md rules R100, R104; 70_reset_and_hazards.md rule R114). -/

namespace Sys2Proof.Machine

open Sys2Proof

/-- R114: reset values meet the invariant, at either level of `rst`. -/
theorem inv_hardReset (s : State) : Inv s.hardReset where
  err := by simp [State.reset]
  zeroed := by simp [State.reset]
  flag := by simp [State.reset]
  oor := by simp [State.reset]
  trunc := by simp [State.reset]
  running := by simp [State.reset]
  held := fun _ => rfl

/-- Settles O50: the reset state is what a hard reset of itself leaves. -/
theorem invariantAtReset : Obligations.InvariantAtReset := inv_hardReset State.reset

/-- R48: the invariant does not read the turns to come. -/
theorem Inv.withInbox {s : State} (h : Inv s) (rest : List Turn) : Inv (s.withInbox rest) where
  err := h.err
  zeroed := h.zeroed
  flag := h.flag
  oor := h.oor
  trunc := h.trunc
  running := fun run hs => by
    obtain ⟨hflags, hwf, hlastop, hlevel, hcapped, hneeded⟩ := h.running run hs
    exact ⟨hflags, hwf, hlastop, hlevel, hcapped, hneeded⟩
  held := fun hr => congrArg (State.withInbox · rest) (h.held hr)

/-- R114: a running command excludes an asserted `rst`. -/
theorem Inv.rst_released {s : State} {run : Run} (h : Inv s) (hs : s.seq = .running run) : s.rst = false := by
  by_contra hr
  have hidle : s.seq = s.hardReset.seq := congrArg State.seq (h.held (Bool.not_eq_false _ ▸ hr))
  rw [hs] at hidle
  cases hidle

/-- R28, R105: a status at command start stays one when only DONE, if at all, is cleared and CMD_OVR written. -/
theorem Status.started_update {st : Status} {done : Bool} (cmdOvr : Bool) (h : st = st.started st.lastop)
    (hdone : st.done = false → done = false) :
    { st with done := done, cmdOvr := cmdOvr } = ({ st with done := done, cmdOvr := cmdOvr } : Status).started st.lastop := by
  have hd : st.done = false := congrArg Status.done h
  rw [hdone hd, h]
  rfl

/-- R28, R105: the invariant is kept by what clears DONE, if anything, and writes CMD_OVR, CTRL and operands at most. -/
theorem Inv.of_status {s t : State} {done : Bool} (cmdOvr : Bool) (h : Inv s) (hr : t.rst = false) (hseq : t.seq = s.seq)
    (hres : t.r0 = s.r0 ∧ t.r1 = s.r1 ∧ t.r2 = s.r2) (hstatus : t.status = { s.status with done := done, cmdOvr := cmdOvr })
    (hdone : s.status.done = false → done = false) : Inv t := by
  obtain ⟨h0, h1, h2⟩ := hres
  refine ⟨?_, ?_, ?_, ?_, ?_, fun run hs => ?_, fun hr' => by simp [hr] at hr'⟩
  · rw [hstatus]; exact h.err
  · rw [hstatus, h0, h1, h2]; exact h.zeroed
  · rw [hstatus]; exact h.flag
  · rw [hstatus]; exact h.oor
  · rw [hstatus]; exact h.trunc
  · obtain ⟨hflags, hwf, hlastop, hlevel, hcapped, hneeded⟩ := h.running run (hseq ▸ hs)
    refine ⟨?_, hwf, ?_, hlevel, hcapped, hneeded⟩
    · rw [hstatus]; exact Status.started_update cmdOvr hflags hdone
    · rw [hstatus]; exact hlastop

/-- R70, R104: every error completion meets the invariant. -/
theorem inv_raise {s : State} (run : Run) {code : ErrCode} (hr : s.rst = false) (hcode : code ≠ .none) : Inv (s.raise run code) where
  err := iff_of_true rfl hcode
  zeroed := fun _ => ⟨rfl, rfl, rfl, rfl, rfl, rfl⟩
  flag := by simp
  oor := by simp
  trunc := by simp
  running := by simp
  held := by simp [hr]

/-- R69, R71: a successful completion, of whatever results, meets the invariant when its flags are those of the command in LASTOP. -/
theorem inv_of_succeeded {t : State} {st : Status} {f : Flags} (hr : t.rst = false) (hs : t.seq = .idle) (hstatus : t.status = st.succeeded f)
    (hflag : f.flag = true → st.lastop = 3#4 ∨ st.lastop = 4#4) (hoor : f.oor = true → st.lastop = 7#4)
    (htrunc : f.trunc = true → st.lastop = 8#4) : Inv t where
  err := by simp [hstatus]
  zeroed := by simp [hstatus]
  flag := by simpa [hstatus] using hflag
  oor := by simpa [hstatus] using hoor
  trunc := by simpa [hstatus] using htrunc
  running := by simp [hs]
  held := by simp [hr]

/-- R65: an issue establishes the invariant of the command it starts. -/
theorem inv_issue (s : State) (w : Word32) (hr : s.rst = false) : Inv (s.issue w) where
  err := by simp
  zeroed := by simp
  flag := by simp
  oor := by simp
  trunc := by simp
  running := by
    rintro run hs
    cases hs
    exact ⟨rfl, decodeWord_wellFormed w, congrArg (BitVec.extractLsb' 0 4) (encode_decodeWord w).symm, rfl, fun _ => Nat.zero_le _,
      fun k hk => absurd hk (Nat.not_lt_zero k)⟩
  held := by simp [hr]

/-- R88: a draw below the cap stays at most at the cap. -/
theorem Snapshot.length_succ_le_limit {op : Snapshot} {n : Nat} (hcap : op.capReached n = false) (hlimit : op.limit ≠ 0#64)
    (hle : n ≤ op.limit.toNat) : n + 1 ≤ op.limit.toNat := by
  obtain hzero | hne := (capReached_eq_false_iff op n).1 hcap
  · exact absurd ((word_eq_zero_iff _).2 hzero) hlimit
  · omega

/-- R88, R89: a draw keeps the invariant of the running command. -/
theorem RunInv.draw {s t : State} {run : Run} (w : Word32) (h : RunInv s run) (hstatus : t.status = s.status)
    (hneeded : wantsWord run.op.op run.words = true) (hcap : run.op.capReached run.words.length = false) :
    RunInv t (Run.after run.op (run.words ++ [w])) where
  flags := hstatus ▸ h.flags
  wellFormed := h.wellFormed
  lastop := hstatus ▸ h.lastop
  level := rfl
  capped := fun hlimit => by
    simpa using Snapshot.length_succ_le_limit hcap hlimit (h.capped hlimit)
  needed := fun k hk => by
    simp only [Run.after_words, Run.after_op, List.length_append, List.length_singleton] at hk ⊢
    rw [List.take_append_of_le_length (by omega)]
    obtain hlt | rfl : k < run.words.length ∨ k = run.words.length := by omega
    · exact h.needed k hlt
    · rw [List.take_length]
      exact hneeded

/-- R104 to R106, R115: a host access keeps the invariant while `rst` is released. -/
theorem HostEffect.inv {s t : State} {access : BusAccess} (hr : s.rst = false) (hinv : Inv s) (h : HostEffect s access t) : Inv t := by
  cases h with
  | answered off bytes => exact hinv.of_status s.status.cmdOvr hr rfl ⟨rfl, rfl, rfl⟩ rfl id
  | ignored => exact hinv
  | operand limit a b m c => exact hinv.of_status s.status.cmdOvr hr rfl ⟨rfl, rfl, rfl⟩ rfl id
  | seeded hidle x => exact hinv.of_status s.status.cmdOvr hr rfl ⟨rfl, rfl, rfl⟩ rfl id
  | acknowledged hstatus => exact hinv.of_status _ hr rfl ⟨rfl, rfl, rfl⟩ rfl fun hdone => by rw [hdone, Bool.false_and]
  | dropped hcmd hbusy => exact hinv.of_status true hr rfl ⟨rfl, rfl, rfl⟩ rfl id
  | issued hidle w => exact inv_issue s w hr
  | configured v => exact hinv.of_status s.status.cmdOvr hr rfl ⟨rfl, rfl, rfl⟩ rfl id
  | softReset hctrl hsrst => exact (inv_hardReset s).of_status false hr rfl ⟨rfl, rfl, rfl⟩ rfl id
  | aborted hctrl habort hs => exact inv_raise _ hr (by decide)

/-- R69 to R71, R88: a step of a running command keeps the invariant; the flags it writes are those of the command that LASTOP names. -/
theorem CommandEffect.inv {s t : State} {run : Run} (hr : s.rst = false) (hs : s.seq = .running run) (hinv : Inv s)
    (h : CommandEffect s run t) : Inv t := by
  have hrun := hinv.running run hs
  cases h with
  | nop hop => exact inv_of_succeeded hr rfl rfl (by simp) (by simp) (by simp)
  | failed code hcode => exact inv_raise run hr hcode
  | completed x y z f hflag hoor htrunc =>
    refine inv_of_succeeded hr rfl rfl (fun hf => ?_) (fun hf => ?_) (fun hf => ?_) <;> rw [hrun.lastop]
    · obtain hop | hop := hflag hf <;> rw [hop]
      · exact .inl rfl
      · exact .inr rfl
    · rw [hoor hf]; rfl
    · rw [htrunc hf]; rfl
  | drew w seed hneeded hcap hinternal =>
    refine ⟨hinv.err, hinv.zeroed, hinv.flag, hinv.oor, hinv.trunc, fun run' hs' => ?_, fun hr' => by simp [hr] at hr'⟩
    cases hs'
    exact hrun.draw w rfl hneeded hcap

/-- R48: every turn that goes on keeps the invariant. -/
theorem TurnEffect.inv {s t : State} {turn : Turn} (hinv : Inv s) (h : TurnEffect s turn t) : Inv t := by
  cases h with
  | held => exact inv_hardReset _
  | reset => exact inv_hardReset _
  | released => exact hinv
  | host hr h => exact h.inv hr hinv
  | stayed => exact hinv
  | command hr _ hs h => exact h.inv hr hs hinv

/-- Settles O51: a step is a turn, and each of its effects keeps the invariant. -/
theorem stepKeepsInvariant : Obligations.StepKeepsInvariant := by
  intro s t hinv hstep
  obtain ⟨turn, rest, -, heffect⟩ := step_effect hstep
  exact heffect.inv (hinv.withInbox rest)

end Sys2Proof.Machine
end

section
/-! The commands that draw: PRIMEGEN and KEYGEN as procedures on the words drawn, one draw, and the words of the internal generator
(42_prime.md rules R87 to R90, R93; 43_rsa.md rule R94; 40_control.md rules R68, R72). -/

namespace Sys2Proof.Machine

open Sys2Proof

/-- R72, R87: a command just issued has drawn nothing, so its words follow SEED. -/
theorem seedFollows_issue (s : State) (w : Word32) : SeedFollows s.seed (s.issue w) := by
  rintro run hs -
  cases hs
  exact ⟨rfl, rfl⟩

/-- R72: an idle sequencer holds no words that could leave the generator. -/
theorem seedFollows_of_idle {s : State} (seed : Word) (hs : s.seq = .idle) : SeedFollows seed s := by
  intro run hrun
  rw [hs] at hrun
  cases hrun

/-- R22, R72: what leaves the sequencer and SEED keeps the words following. -/
theorem SeedFollows.congr {s t : State} {seed : Word} (h : SeedFollows seed s) (hseq : t.seq = s.seq) (hseed : t.seed = s.seed) :
    SeedFollows seed t := by
  intro run hs hsrc
  rw [hseed]
  exact h run (hseq ▸ hs) hsrc

/-- R22, R72: while a command runs, no host access moves its words or SEED. -/
theorem HostEffect.seedFollows {s t : State} {access : BusAccess} {seed : Word} (hbusy : s.busy = true) (hfollows : SeedFollows seed s)
    (h : HostEffect s access t) : SeedFollows seed t := by
  cases h with
  | answered | ignored | operand | acknowledged | dropped | configured => exact hfollows.congr rfl rfl
  | seeded hidle => exact absurd hbusy (by simp [hidle])
  | issued hidle => exact absurd hbusy (by simp [hidle])
  | softReset | aborted => exact seedFollows_of_idle seed rfl

/-- R72, R87: a draw from the internal generator takes the next word and advances SEED; every other step ends the command. -/
theorem CommandEffect.seedFollows {s t : State} {run : Run} {seed : Word} (hs : s.seq = .running run) (hfollows : SeedFollows seed s)
    (h : CommandEffect s run t) : SeedFollows seed t := by
  cases h with
  | nop | failed | completed => exact seedFollows_of_idle seed rfl
  | drew w seed' hneeded hcap hinternal =>
    rintro run' hs' hsrc
    cases hs'
    obtain ⟨hwords, hseed⟩ := hfollows run hs hsrc
    obtain ⟨rfl, rfl⟩ := hinternal hsrc
    simp only [Run.after_words, List.length_append, List.length_singleton, seedWords_snoc, seedAfter_snoc, ← hwords, ← hseed, and_self]

/-- R72: every turn keeps the words of a running command on the generator. -/
theorem TurnEffect.seedFollows {s t : State} {turn : Turn} {seed : Word} (hbusy : s.busy = true) (hfollows : SeedFollows seed s)
    (h : TurnEffect s turn t) : SeedFollows seed t := by
  cases h with
  | held | reset => exact seedFollows_of_idle seed rfl
  | released | stayed => exact hfollows
  | host hr h => exact h.seedFollows hbusy hfollows
  | command hr hturn hs h => exact h.seedFollows hs hfollows

/-- R65, R72: from an IDLE state, only an issue starts a command, and it takes SEED as it is. -/
theorem TurnEffect.seedFollows_of_idle {s t : State} {turn : Turn} (hidle : s.seq = .idle) (h : TurnEffect s turn t) :
    SeedFollows s.seed t := by
  have hstay : SeedFollows s.seed s := Machine.seedFollows_of_idle s.seed hidle
  cases h with
  | held | reset => exact Machine.seedFollows_of_idle _ rfl
  | released | stayed => exact hstay
  | command hr hturn hs h => exact absurd (hidle.symm.trans hs) (by simp)
  | host hr h =>
    cases h with
    | answered | ignored | operand | acknowledged | dropped | configured => exact hstay.congr rfl rfl
    | seeded => exact Machine.seedFollows_of_idle _ hidle
    | issued hidle' w => exact seedFollows_issue s w
    | softReset | aborted => exact Machine.seedFollows_of_idle _ rfl

/-- Settles O56: a step is a turn; from a running command every effect keeps the words following, and from an IDLE state every effect
establishes it for SEED. -/
theorem stepKeepsSeedFollowing : Obligations.StepKeepsSeedFollowing := by
  refine ⟨fun s t seed hfollows hbusy hstep => ?_, fun s t hidle hstep => ?_⟩ <;>
    obtain ⟨turn, rest, -, heffect⟩ := step_effect hstep
  · exact TurnEffect.seedFollows (s := s.withInbox rest) hbusy hfollows heffect
  · exact TurnEffect.seedFollows_of_idle (s := s.withInbox rest) (s.not_busy_iff.1 hidle) heffect

/-- R68: the commands that draw. -/
theorem eq_of_wantsWord {i : Instr} {words : List Word32} (h : wantsWord i words = true) : i = .primegen ∨ i = .keygen := by
  cases i with
  | primegen => exact .inl rfl
  | keygen => exact .inr rfl
  | nop | modmul | modexp | modinv | primetest | encrypt | decrypt | illegal => cases h

/-- R68, R88: the sequencer step of a command that needs a word is a draw. -/
theorem exec_of_wantsWord {i : Instr} {s : State} {run : Run} (hs : s.seq = .running run) (h : wantsWord i run.words = true) :
    exec i s = .next (s.draw run) := by
  obtain rfl | rfl := eq_of_wantsWord h
  · have hneed : primegenProc run.words = .need := beq_iff_eq.1 h
    exact congrArg _ ((s.onRun_running run _ hs).trans (by rw [hneed]; rfl))
  · have hneed : keygenProc run.words = .need := beq_iff_eq.1 h
    exact congrArg _ ((s.onRun_running run _ hs).trans (by rw [hneed]; rfl))

/-- R88: a draw whose cap is used up is the error completion RETRY_EXHAUSTED. -/
theorem State.draw_of_capReached (s : State) (run : Run) (hcap : run.op.capReached run.words.length = true) :
    s.draw run = s.raise run .retryExhausted := by
  rw [State.draw, if_pos hcap]

/-- R88: below the cap, a draw from the port takes the delivered word. -/
theorem State.draw_delivered (s : State) (run : Run) {w : Word32} (hsrc : run.op.src = false) (hport : run.port = some w)
    (hcap : run.op.capReached run.words.length = false) :
    s.draw run = { s with seq := .running (Run.after run.op (run.words ++ [w])) } := by
  simp [State.draw, hcap, hsrc, hport]

/-- R88, log 3: below the cap, a draw from the port with no word delivered changes nothing. -/
theorem State.draw_waiting (s : State) (run : Run) (hsrc : run.op.src = false) (hport : run.port = none)
    (hcap : run.op.capReached run.words.length = false) : s.draw run = s := by
  simp [State.draw, hcap, hsrc, hport]

/-- R68, R88: what a draw of one word leaves, by the claims' terms. -/
theorem drew_after (s : State) (run : Run) (w : Word32) (seed : Word) :
    Drew s { s with seed := seed, seq := .running (Run.after run.op (run.words ++ [w])) } run w seed where
  running := ⟨_, rfl, rfl, rfl, rfl⟩
  seed := rfl
  r0 := rfl
  r1 := rfl
  r2 := rfl
  attempts := rfl
  status := rfl
  rest := ⟨rfl, rfl, rfl, rfl, rfl, rfl, rfl, rfl, rfl, rfl, rfl, rfl⟩

/-- Settles O24: the step is the draw, which the cap, the source and the port decide. -/
theorem drawStep : Obligations.DrawStep := by
  intro i s run hs hneeded
  rw [exec_of_wantsWord hs hneeded, ← capReached_eq_false_iff]
  refine ⟨fun hlimit hlen => ?_, fun hcap => ⟨fun hsrc => ?_, fun w hsrc hport => ?_, fun hsrc hport => ?_⟩⟩
  · rw [s.draw_of_capReached run ((capReached_iff _ _).2 ⟨hlimit, hlen⟩)]
    exact ⟨_, rfl, s.raise_failed run .retryExhausted⟩
  · rw [s.draw_internal run hsrc hcap]
    exact ⟨_, rfl, drew_after s run _ _⟩
  · rw [s.draw_delivered run hsrc hport hcap]
    exact ⟨_, rfl, drew_after s run w s.seed⟩
  · rw [s.draw_waiting run hsrc hport hcap]

end Sys2Proof.Machine
end

section
/-! The procedures of PRIMEGEN and KEYGEN against the words drawn, and KEYGEN's pseudocode (42_prime.md rules R89, R90, R93; 43_rsa.md rule R94). -/

namespace Sys2Proof.Machine

open Sys2Proof

/-- R93: composite candidates are resampled. -/
theorem primegenProc_append {before : List Word32} (ws : List Word32) (h : ∀ v ∈ before, candPrime v = false) :
    primegenProc (before ++ ws) = primegenProc ws := by
  induction before with
  | nil => rfl
  | cons v vs ih =>
    obtain ⟨hv, hvs⟩ := List.forall_mem_cons.1 h
    rw [List.cons_append, primegenProc, hv, if_neg (by decide), ih hvs]

/-- R93: PRIMEGEN's procedure needs a word exactly while no candidate is prime. -/
theorem primegenProc_eq_need_iff (ws : List Word32) : primegenProc ws = .need ↔ ∀ v ∈ ws, candPrime v = false := by
  induction ws with
  | nil => simp [primegenProc]
  | cons w ws ih => cases hw : candPrime w <;> simp [primegenProc, hw, ih]

/-- R90, R91: a candidate that is not prime, as the test answers. -/
theorem candPrime_eq_false_iff (w : Word32) : candPrime w = false ↔ ¬ Nat.Prime (w ||| 0x80000001#32).toNat := by
  rw [← candPrime_iff, Bool.not_eq_true]

/-- Settles O17: the procedure needs a word exactly while every candidate is composite. -/
theorem primegenDrawsUntilPrime : Obligations.PrimegenDrawsUntilPrime := by
  intro words
  simp only [wantsWord, beq_iff_eq, primegenProc_eq_need_iff, candPrime_eq_false_iff]

/-- R89, R93: the sequencer step of a running PRIMEGEN. -/
theorem exec_primegen_running {run : Run} (s : State) (h : s.seq = .running run) :
    exec .primegen s = .next (s.proceed run (primegenProc run.words)) :=
  congrArg _ (s.onRun_running run _ h)

/-- Settles O16: the procedure passes the composite candidates and returns the first prime one. -/
theorem primegenResult : Obligations.PrimegenResult := by
  refine ⟨rfl, fun s run before w hs hwords hbefore hprime => ?_⟩
  have hproc : primegenProc run.words = .done (cand w) 0#64 0#64 := by
    rw [hwords, primegenProc_append _ fun v hv => (candPrime_eq_false_iff v).2 (hbefore v hv), primegenProc,
      if_pos ((candPrime_iff w).2 hprime)]
  rw [exec_primegen_running s hs, hproc]
  exact ⟨_, rfl, s.complete_completed_of_toNat run _ (cand_toNat w) rfl rfl⟩

/-- R93, R94: when no prime is left in the words, KEYGEN's procedure needs another word, wherever it stands. -/
theorem keygenFrom_of_genPrime_none {ws : List Word32} (h : genPrime ws = none) (pos : KeyPos) : keygenFrom pos ws = .need := by
  induction ws with
  | nil => cases pos <;> rfl
  | cons w ws ih =>
    cases hw : candPrime w with
    | true => simp [genPrime, hw] at h
    | false =>
      have hws : genPrime ws = none := by simpa [genPrime, hw] using h
      cases pos <;> simp [keygenFrom, hw, ih hws]

/-- R93: the search for a prime takes at least its word. -/
theorem length_lt_of_genPrime {p : Word} {ws rest : List Word32} (h : genPrime ws = some (p, rest)) : rest.length < ws.length := by
  induction ws with
  | nil => cases h
  | cons w ws ih =>
    cases hw : candPrime w with
    | true =>
      obtain ⟨-, rfl⟩ : cand w = p ∧ ws = rest := by simpa [genPrime, hw] using h
      exact Nat.lt_succ_self _
    | false => exact (ih (by simpa [genPrime, hw] using h)).trans (Nat.lt_succ_self _)

/-- R94: `p <- gen_prime()`. -/
theorem keygenFrom_first_of_genPrime {p : Word} {ws rest : List Word32} (h : genPrime ws = some (p, rest)) :
    keygenFrom .first ws = keygenFrom (.second p) rest := by
  induction ws with
  | nil => cases h
  | cons w ws ih =>
    cases hw : candPrime w with
    | true =>
      obtain ⟨rfl, rfl⟩ : cand w = p ∧ ws = rest := by simpa [genPrime, hw] using h
      simp [keygenFrom, hw]
    | false => simpa [keygenFrom, hw] using ih (by simpa [genPrime, hw] using h)

/-- R94: what KEYGEN's procedure does with a second prime `q` other than `p`. -/
def keygenPair (p q : Word) (rest : List Word32) : ProcResult :=
  if exponentInvertible p.toNat q.toNat then .done p q (BitVec.ofNat 64 (p.toNat * q.toNat)) else keygenFrom .first rest

/-- R94: `q <- gen_prime()`, drawn again while `q = p`. -/
theorem keygenFrom_second_of_genPrime {p q : Word} {ws rest : List Word32} (h : genPrime ws = some (q, rest)) :
    keygenFrom (.second p) ws = if q = p then keygenFrom (.second p) rest else keygenPair p q rest := by
  induction ws with
  | nil => cases h
  | cons w ws ih =>
    cases hw : candPrime w with
    | true =>
      obtain ⟨rfl, rfl⟩ : cand w = q ∧ ws = rest := by simpa [genPrime, hw] using h
      by_cases hp : cand w = p <;> simp [keygenFrom, keygenPair, hw, hp]
    | false => simpa [keygenFrom, hw] using ih (by simpa [genPrime, hw] using h)

/-- R94: when the search for a second prime has rounds enough and finds none, the procedure needs another word. -/
theorem keygenFrom_second_of_genOther_none {p : Word} {n : Nat} {ws : List Word32} (hn : ws.length < n) (h : genOther p n ws = none) :
    keygenFrom (.second p) ws = .need := by
  induction n generalizing ws with
  | zero => exact absurd hn (Nat.not_lt_zero _)
  | succ n ih =>
    cases hg : genPrime ws with
    | none => exact keygenFrom_of_genPrime_none hg _
    | some found =>
      obtain ⟨q, rest⟩ := found
      have hlt := length_lt_of_genPrime hg
      rw [keygenFrom_second_of_genPrime hg]
      by_cases hq : q = p
      · rw [if_pos hq]
        exact ih (by omega) (by simpa [genOther, hg, hq] using h)
      · simp [genOther, hg, hq] at h

/-- R94: the second prime the pseudocode's loop finds is the one the procedure goes on with. -/
theorem keygenFrom_second_of_genOther {p q : Word} {n : Nat} {ws rest : List Word32} (h : genOther p n ws = some (q, rest)) :
    rest.length < ws.length ∧ keygenFrom (.second p) ws = keygenPair p q rest := by
  induction n generalizing ws with
  | zero => cases h
  | succ n ih =>
    cases hg : genPrime ws with
    | none => simp [genOther, hg] at h
    | some found =>
      obtain ⟨q', rest'⟩ := found
      have hlt := length_lt_of_genPrime hg
      rw [keygenFrom_second_of_genPrime hg]
      by_cases hq : q' = p
      · rw [if_pos hq]
        obtain ⟨hlt', hpair⟩ := ih (by simpa [genOther, hg, hq] using h)
        exact ⟨hlt'.trans hlt, hpair⟩
      · obtain ⟨rfl, rfl⟩ : q' = q ∧ rest' = rest := by simpa [genOther, hg, hq] using h
        exact ⟨hlt, if_neg hq⟩

/-- R94: with rounds enough, KEYGEN's loop is the procedure from its start. -/
theorem keygenLoop_eq_keygenFrom {n : Nat} {ws : List Word32} (hn : ws.length < n) : keygenLoop n ws = keygenFrom .first ws := by
  induction n generalizing ws with
  | zero => exact absurd hn (Nat.not_lt_zero _)
  | succ n ih =>
    cases hp : genPrime ws with
    | none => simp [keygenLoop, hp, keygenFrom_of_genPrime_none hp]
    | some found =>
      obtain ⟨p, ws1⟩ := found
      have hlt := length_lt_of_genPrime hp
      rw [keygenFrom_first_of_genPrime hp]
      cases hq : genOther p (ws1.length + 1) ws1 with
      | none => simp [keygenLoop, hp, hq, keygenFrom_second_of_genOther_none (Nat.lt_succ_self _) hq]
      | some found' =>
        obtain ⟨q, ws2⟩ := found'
        obtain ⟨hlt', hpair⟩ := keygenFrom_second_of_genOther hq
        simp [keygenLoop, hp, hq, hpair, keygenPair, ih (show ws2.length < n by omega)]

/-- Settles O19: each round of the loop takes words, so one round more than there are words is enough. -/
theorem keygenFollowsPseudocode : Obligations.KeygenFollowsPseudocode := fun words =>
  (keygenLoop_eq_keygenFrom (Nat.lt_succ_self words.length)).symm

/-- R89, R94: the sequencer step of a running KEYGEN. -/
theorem exec_keygen_running {run : Run} (s : State) (h : s.seq = .running run) :
    exec .keygen s = .next (s.proceed run (keygenProc run.words)) :=
  congrArg _ (s.onRun_running run _ h)

/-- Settles O18: the step follows the procedure, which is the pseudocode's; the product of a valid key fits R2. -/
theorem keygenResult : Obligations.KeygenResult := by
  refine ⟨rfl, fun s run hs => ?_⟩
  rw [exec_keygen_running s hs, ← keygenFollowsPseudocode]
  refine ⟨fun p q n hdone => ?_, fun hneed => ?_⟩
  · rw [hdone]
    exact ⟨_, rfl, s.complete_completed_of_toNat run _ rfl rfl (keygenFrom_valid run.words .first trivial hdone).modulus⟩
  · rw [hneed]
    exact ⟨rfl, beq_iff_eq.2 hneed⟩

/-- R90: a candidate's bits are its word's, with bits 31 and 0 set. -/
theorem cand_getLsbD (w : Word32) (k : Nat) : (cand w).getLsbD k = (w.getLsbD k || (0x80000001#32).getLsbD k) := by
  rw [BitVec.getLsbD, cand_toNat, ← BitVec.getLsbD, BitVec.getLsbD_or]

/-- R90: bits 30 to 1 of the mask of a candidate are 0. -/
theorem candMask_getLsbD {k : Nat} (h1 : 1 ≤ k) (h30 : k ≤ 30) : (0x80000001#32).getLsbD k = false := by
  interval_cases k <;> rfl

/-- R90: an odd number of 32 bits is the candidate of its own word. -/
theorem cand_ofNat {n : Nat} (hlo : 2 ^ 31 ≤ n) (hhi : n < 2 ^ 32) (hodd : n % 2 = 1) : (cand (BitVec.ofNat 32 n)).toNat = n := by
  have htop : n.testBit 31 = true := by
    rw [Nat.testBit_eq_decide_div_mod_eq, decide_eq_true_iff]
    omega
  have hor : BitVec.ofNat 32 n ||| 0x80000001#32 = BitVec.ofNat 32 n := by
    refine BitVec.eq_of_getLsbD_eq fun k hk => ?_
    rw [BitVec.getLsbD_or, BitVec.getLsbD_ofNat]
    obtain rfl | hmid | rfl : k = 0 ∨ (1 ≤ k ∧ k ≤ 30) ∨ k = 31 := by omega
    · simp [hodd]
    · rw [candMask_getLsbD hmid.1 hmid.2, Bool.or_false]
    · simp [htop]
  rw [cand_toNat, hor, BitVec.toNat_ofNat, Nat.mod_eq_of_lt hhi]

/-- Settles O26: a candidate has bits 31 and 0 set and its word's other bits, and every such number is its own candidate. -/
theorem candidateRange : Obligations.CandidateRange := by
  refine ⟨fun w => ⟨?_, ?_, ?_, fun k h1 h30 => ?_⟩, fun n hlo hhi hodd => ⟨_, cand_ofNat hlo hhi hodd⟩⟩
  · rw [cand_toNat, BitVec.toNat_or]
    exact le_trans (by decide) Nat.right_le_or
  · rw [cand_toNat]
    exact BitVec.isLt _
  · have hbit : (cand w).getLsbD 0 = true := by simp [cand_getLsbD]
    exact Nat.mod_two_eq_one_iff_testBit_zero.2 hbit
  · rw [cand_getLsbD, candMask_getLsbD h1 h30, Bool.or_false]

end Sys2Proof.Machine
end

section
/-! How a command runs to its end: the one step of the commands that draw nothing, the steps of a command on the internal generator, and what the
outcome depends on (40_control.md rules R68, R72; 42_prime.md rules R87, R88; 70_reset_and_hazards.md rules R122, R125). -/

namespace Sys2Proof.Machine

open Sys2Proof

/-- Settles O9: without PRIMEGEN and KEYGEN the step is a completion, of NOP, with an error or with results. -/
theorem otherCommandsCompleteInOneStep : Obligations.OtherCommandsCompleteInOneStep := by
  intro i s run hprimegen hkeygen hs
  obtain ⟨-, e⟩ | ⟨code, -, e⟩ | ⟨x, y, z, f, e, -⟩ | ⟨hdraws, -, -⟩ := exec_running i s run hs
  · exact ⟨_, e, rfl, rfl, rfl, s.completeNop_sameHostSide⟩
  · exact ⟨_, e, rfl, rfl, rfl, (s.raise_failed run code).rest⟩
  · exact ⟨_, e, rfl, rfl, rfl, (s.complete_completed run x y z f).rest⟩
  · exact absurd hdraws (not_or.2 ⟨hprimegen, hkeygen⟩)

/-- R87, R88: with the internal source a step of a running command waits for nothing. -/
theorem step_internal_effect {s t : State} {run : Run} (hr : s.rst = false) (hi : s.inbox = []) (hs : s.seq = .running run)
    (hsrc : run.op.src = true) (h : step s = .next t) : CommandEffect s run t := by
  rw [step_running s run hr hi hs] at h
  obtain heffect | ⟨-, -, hrequest⟩ := exec_effect hs h
  · exact heffect
  · exact absurd ((Run.after_request_iff _ _).1 hrequest).1 (by simp [hsrc])

/-- R72: where a command issued with the internal source stands after `k` steps of the sequencer: ended, or running with `k` words that follow
the SEED of its issue. -/
structure SeededAt (seed : Word) (k : Nat) (t : State) : Prop where
  rst : t.rst = false
  inbox : t.inbox = []
  follows : SeedFollows seed t
  running : ∀ run, t.seq = .running run → run.op.src = true ∧ run.words.length = k

/-- R72, R87: a step of the sequencer draws one word more or ends the command. -/
theorem SeededAt.step {seed : Word} {k : Nat} {t u : State} (h : SeededAt seed k t) (hstep : step t = .next u) :
    SeededAt seed (k + 1) u := by
  cases hs : t.seq with
  | idle =>
    rw [step_idle t h.rst h.inbox hs] at hstep
    obtain rfl := Host.Outcome.next.inj hstep
    exact ⟨h.rst, h.inbox, h.follows, fun run hrun => absurd (hs.symm.trans hrun) (by simp)⟩
  | running run =>
    obtain ⟨hsrc, hlen⟩ := h.running run hs
    have heffect := step_internal_effect h.rst h.inbox hs hsrc hstep
    refine ⟨heffect.rst_eq.1.trans h.rst, heffect.rst_eq.2.trans h.inbox, heffect.seedFollows hs h.follows, fun run' hs' => ?_⟩
    cases heffect with
    | nop | failed | completed => cases hs'
    | drew w =>
      cases hs'
      exact ⟨hsrc, by simp [hlen]⟩

/-- R72, R87: the words of a command issued with the internal source, after `k` steps. -/
theorem seededAt_run {s t : State} (w : Word32) (hr : s.rst = false) (hi : s.inbox = []) (hsrc : s.ctrl.entSrc = true) (k : Nat)
    (h : core.run k (s.issue w) = .next t) : SeededAt s.seed k t := by
  induction k generalizing t with
  | zero =>
    obtain rfl := Host.Outcome.next.inj h
    refine ⟨hr, hi, seedFollows_issue s w, fun run hs => ?_⟩
    cases hs
    exact ⟨hsrc, rfl⟩
  | succ k ih =>
    cases hk : core.run k (s.issue w) with
    | next u => exact (ih hk).step ((core_run_snoc k _ u hk).symm.trans h)
    | fault r => rw [core_run_fault k _ r hk] at h; cases h
    | refused r => rw [core_run_refused k _ r hk] at h; cases h

/-- Settles O27: while the command runs, it has drawn one word in each step. -/
theorem seededWordsFollowSeed : Obligations.SeededWordsFollowSeed := by
  intro s w hr hbusy hi hsrc k t run hrun hs
  rw [s.deliverCmd_of_not_busy w hbusy] at hrun
  have hat := seededAt_run w hr hi hsrc k hrun
  obtain ⟨hsrc', rfl⟩ := hat.running run hs
  exact hat.follows run hs hsrc'

/-- R88, R122: a step of a capped command on the internal generator ends it, or draws one of the words left to its cap. -/
theorem step_capped_seeded {s : State} {run : Run} (hr : s.rst = false) (hi : s.inbox = []) (hs : s.seq = .running run)
    (hsrc : run.op.src = true) (hlimit : run.op.limit ≠ 0#64) (hle : run.words.length ≤ run.op.limit.toNat) :
    ∃ t, step s = .next t ∧ (t.busy = false ∧ t.status.done = true ∨
      t.rst = false ∧ t.inbox = [] ∧ ∃ w, t.seq = .running (Run.after run.op (run.words ++ [w])) ∧
        run.words.length + 1 ≤ run.op.limit.toNat) := by
  obtain ⟨t, hexec⟩ := exec_next run.op.op s
  have hstep : step s = .next t := (step_running s run hr hi hs).trans hexec
  refine ⟨t, hstep, ?_⟩
  cases step_internal_effect hr hi hs hsrc hstep with
  | nop | failed | completed => exact .inl ⟨rfl, rfl⟩
  | drew w seed hneeded hcap hinternal => exact .inr ⟨hr, hi, w, rfl, Snapshot.length_succ_le_limit hcap hlimit hle⟩

/-- R122: with at most `n` words left to its cap, a command on the internal generator ends within `n + 1` steps. -/
theorem capped_seeded_completes (n : Nat) {s : State} {run : Run} (hr : s.rst = false) (hi : s.inbox = []) (hs : s.seq = .running run)
    (hsrc : run.op.src = true) (hlimit : run.op.limit ≠ 0#64) (hle : run.words.length ≤ run.op.limit.toNat)
    (hn : run.op.limit.toNat - run.words.length ≤ n) :
    ∃ k t, k ≤ n + 1 ∧ core.run k s = .next t ∧ t.busy = false ∧ t.status.done = true := by
  induction n generalizing s run with
  | zero =>
    obtain ⟨t, hstep, hend | ⟨-, -, w, -, hlt⟩⟩ := step_capped_seeded hr hi hs hsrc hlimit hle
    · exact ⟨1, t, le_rfl, (core_run_one s).trans hstep, hend⟩
    · omega
  | succ n ih =>
    obtain ⟨t, hstep, hend | ⟨hr', hi', w, hs', hlt⟩⟩ := step_capped_seeded hr hi hs hsrc hlimit hle
    · exact ⟨1, t, by omega, (core_run_one s).trans hstep, hend⟩
    · obtain ⟨k, u, hk, hrun, hend⟩ := ih hr' hi' hs' hsrc hlimit (by simpa using hlt) (by simp; omega)
      exact ⟨k + 1, u, by omega, (core_run_succ k s t hstep).trans hrun, hend⟩

/-- Settles O28: each step that does not end the command draws one of the words left to its cap. -/
theorem cappedSeededCommandCompletes : Obligations.CappedSeededCommandCompletes := fun _ _ hr hi hs hsrc hlimit hle =>
  capped_seeded_completes _ hr hi hs hsrc hlimit hle le_rfl

/-- R72: the outcomes of two states agree: both commands go on, or both end with the same results, flags and error. -/
def SameOutcome (t1 t2 : State) : Prop :=
  t1.busy = t2.busy ∧ (t1.busy = false →
    t1.r0 = t2.r0 ∧ t1.r1 = t2.r1 ∧ t1.r2 = t2.r2 ∧ t1.attempts = t2.attempts ∧ t1.status.flag = t2.status.flag ∧
    t1.status.oor = t2.status.oor ∧ t1.status.trunc = t2.status.trunc ∧ t1.status.err = t2.status.err ∧
    t1.status.errcode = t2.status.errcode)

/-- R69: a successful completion does not depend on the state it is written to. -/
theorem complete_sameOutcome (s1 s2 : State) (run : Run) (x y z : Word) (f : Flags) :
    SameOutcome (s1.complete run x y z f) (s2.complete run x y z f) :=
  ⟨rfl, fun _ => ⟨rfl, rfl, rfl, rfl, rfl, rfl, rfl, rfl, rfl⟩⟩

/-- R70: an error completion does not depend on the state it is written to. -/
theorem raise_sameOutcome (s1 s2 : State) (run : Run) (code : ErrCode) : SameOutcome (s1.raise run code) (s2.raise run code) :=
  ⟨rfl, fun _ => ⟨rfl, rfl, rfl, rfl, rfl, rfl, rfl, rfl, rfl⟩⟩

/-- R72: two states whose commands both go on agree. -/
theorem sameOutcome_of_busy {t1 t2 : State} (h1 : t1.busy = true) (h2 : t2.busy = true) : SameOutcome t1 t2 :=
  ⟨h1.trans h2.symm, fun h => absurd h1 (by simp [h])⟩

/-- R88: whether a draw ends the command depends on the run alone. -/
theorem draw_sameOutcome {s1 s2 : State} {run : Run} (h1 : s1.seq = .running run) (h2 : s2.seq = .running run) :
    SameOutcome (s1.draw run) (s2.draw run) := by
  cases hcap : run.op.capReached run.words.length with
  | true =>
    rw [s1.draw_of_capReached run hcap, s2.draw_of_capReached run hcap]
    exact raise_sameOutcome s1 s2 run _
  | false =>
    have hbusy {s : State} (hs : s.seq = .running run) : (s.draw run).busy = true := by
      obtain ⟨hcap', -⟩ | ⟨-, -, hd⟩ | ⟨-, -, w, -, hd⟩ | ⟨-, -, -, hd⟩ := s.draw_cases run
      · exact absurd hcap' (by simp [hcap])
      · exact hd ▸ rfl
      · exact hd ▸ rfl
      · exact hd.symm ▸ s.busy_running run hs
    exact sameOutcome_of_busy (hbusy h1) (hbusy h2)

/-- R89: a step of a command that draws depends on the run alone. -/
theorem proceed_sameOutcome {s1 s2 : State} {run : Run} (h1 : s1.seq = .running run) (h2 : s2.seq = .running run) (res : ProcResult) :
    SameOutcome (s1.proceed run res) (s2.proceed run res) := by
  cases res with
  | done x y z => exact complete_sameOutcome s1 s2 run x y z _
  | need => exact draw_sameOutcome h1 h2

/-- R72: what a branch on the run decides, it decides for both states. -/
theorem ite_sameOutcome {c : Prop} [Decidable c] {a1 a2 b1 b2 : State} (ha : SameOutcome a1 a2) (hb : SameOutcome b1 b2) :
    SameOutcome (if c then a1 else b1) (if c then a2 else b2) := by
  split
  · exact ha
  · exact hb

/-- R72: the step of a command, as a function of its run, gives both states the same outcome. -/
theorem onRun_sameOutcome {s1 s2 t1 t2 : State} {run : Run} {f1 f2 : Run → State} (h1 : s1.seq = .running run)
    (h2 : s2.seq = .running run) (e1 : Host.Outcome.next (φ := Fault) (ρ := Refusal) (s1.onRun f1) = .next t1)
    (e2 : Host.Outcome.next (φ := Fault) (ρ := Refusal) (s2.onRun f2) = .next t2) (h : SameOutcome (f1 run) (f2 run)) :
    SameOutcome t1 t2 := by
  rw [← Host.Outcome.next.inj e1, ← Host.Outcome.next.inj e2, s1.onRun_running run f1 h1, s2.onRun_running run f2 h2]
  exact h

/-- Settles O49: each command's step branches on the run alone, and completes, raises or draws in both states alike; NOP keeps results that
agree. -/
theorem outcomeDependsOnSnapshotAndWords : Obligations.OutcomeDependsOnSnapshotAndWords := by
  intro i s1 s2 t1 t2 run hnop h1 h2 e1 e2
  have raised (code : ErrCode) := raise_sameOutcome s1 s2 run code
  have completed (x y z : Word) (f : Flags) := complete_sameOutcome s1 s2 run x y z f
  cases i with
  | nop =>
    obtain ⟨hr0, hr1, hr2, hattempts⟩ := hnop rfl
    exact onRun_sameOutcome h1 h2 e1 e2 ⟨rfl, fun _ => ⟨hr0, hr1, hr2, hattempts, rfl, rfl, rfl, rfl, rfl⟩⟩
  | modmul => exact onRun_sameOutcome h1 h2 e1 e2 (ite_sameOutcome (raised _) (completed _ _ _ _))
  | modexp => exact onRun_sameOutcome h1 h2 e1 e2 (ite_sameOutcome (raised _) (completed _ _ _ _))
  | modinv =>
    exact onRun_sameOutcome h1 h2 e1 e2 (ite_sameOutcome (raised _) (ite_sameOutcome (completed _ _ _ _) (completed _ _ _ _)))
  | primetest => exact onRun_sameOutcome h1 h2 e1 e2 (ite_sameOutcome (completed _ _ _ _) (raised _))
  | primegen => exact onRun_sameOutcome h1 h2 e1 e2 (proceed_sameOutcome h1 h2 _)
  | keygen => exact onRun_sameOutcome h1 h2 e1 e2 (proceed_sameOutcome h1 h2 _)
  | encrypt =>
    exact onRun_sameOutcome h1 h2 e1 e2 (ite_sameOutcome (raised _) (ite_sameOutcome (raised _) (completed _ _ _ _)))
  | decrypt =>
    exact onRun_sameOutcome h1 h2 e1 e2
      (ite_sameOutcome (raised _) (ite_sameOutcome (raised _) (ite_sameOutcome (raised _) (completed _ _ _ _))))
  | illegal w => exact onRun_sameOutcome h1 h2 e1 e2 (raised _)

end Sys2Proof.Machine
end

section
/-! What a step of any agent leaves alone: reset, results, operands, CMD_OVR, and the end of a command (10_state.md rules R23 to R25, R28;
40_control.md rule R67; 70_reset_and_hazards.md rules R114, R115, R117). -/

namespace Sys2Proof.Machine

open Sys2Proof

/-- R114: under an asserted `rst`, and in the step that asserts it, a turn leaves every register at reset. -/
theorem TurnEffect.atReset {s t : State} {turn : Turn} (hreset : s.rst = true ∨ turn = .reset true) (h : TurnEffect s turn t) :
    AtReset t := by
  have hlive (hr : s.rst = false) : turn = .reset true := hreset.resolve_left (by simp [hr])
  cases h with
  | held | reset => exact State.hardReset_atReset _
  | released hr => cases hlive hr
  | host hr => cases hlive hr
  | stayed hr hturn => obtain rfl | ⟨w, rfl⟩ := hturn <;> cases hlive hr
  | command hr hturn => obtain rfl | ⟨w, rfl⟩ := hturn <;> cases hlive hr

/-- R114: no turn of another agent moves `rst`. -/
theorem TurnEffect.rst_eq {s t : State} {turn : Turn} (hother : ∀ level, turn ≠ .reset level) (h : TurnEffect s turn t) :
    t.rst = s.rst := by
  cases h with
  | held => rfl
  | reset => exact absurd rfl (hother _)
  | released => exact absurd rfl (hother _)
  | host hr h => exact h.rst_eq.1
  | stayed => rfl
  | command hr hturn hs h => exact h.rst_eq.1

/-- R114: a turn of the reset input sets the level of `rst`. -/
theorem State.turn_reset (s : State) (level : Bool) : ∃ t, s.turn (.reset level) = .next t ∧ t.rst = level := by
  cases hr : s.rst with
  | true => exact ⟨_, by simp only [State.turn, hr, if_true]; rfl, rfl⟩
  | false =>
    cases level with
    | true => exact ⟨_, by simp only [State.turn, hr]; rfl, rfl⟩
    | false => exact ⟨s, by simp only [State.turn, hr]; rfl, hr⟩

/-- Settles O42: a step is a turn, and only the turns of the reset input move `rst`. -/
theorem resetInputHoldsReset : Obligations.ResetInputHoldsReset := by
  refine ⟨fun s t hstep hreset => ?_, fun s level rest hi => ?_, fun s t hstep hother => ?_⟩
  · obtain ⟨turn, rest, hnext, heffect⟩ := step_effect hstep
    refine TurnEffect.atReset (s := s.withInbox rest) (hreset.imp_right ?_) heffect
    rintro ⟨rest', hi'⟩
    obtain hi | ⟨hi, -⟩ := hnext
    · exact (List.cons.inj (hi.symm.trans hi')).1
    · cases hi.symm.trans hi'
  · rw [step_cons s _ rest hi]
    exact State.turn_reset _ level
  · obtain ⟨turn, rest, hnext, heffect⟩ := step_effect hstep
    refine TurnEffect.rst_eq (s := s.withInbox rest) (fun level hturn => ?_) heffect
    obtain hi | ⟨-, hseq⟩ := hnext
    · exact hother level rest (hturn ▸ hi)
    · cases hturn.symm.trans hseq

/-- R115: what a reset leaves, SRST included: IDLE, STATUS and the results 0. -/
def Cleared (t : State) : Prop :=
  t.r0 = 0#64 ∧ t.r1 = 0#64 ∧ t.r2 = 0#64 ∧ t.attempts = 0#64 ∧ t.seq = .idle ∧ t.statusWord = 0#64

/-- R114: a hard reset clears STATUS and the results. -/
theorem cleared_hardReset (s : State) : Cleared s.hardReset :=
  ⟨rfl, rfl, rfl, rfl, rfl, State.statusWord_reset _ rfl rfl⟩

/-- R115: so does SRST, which then writes CTRL. -/
theorem cleared_softReset (s : State) (v : Word) : Cleared (s.hardReset.setCtrl v) :=
  ⟨rfl, rfl, rfl, rfl, rfl, State.statusWord_reset _ rfl rfl⟩

/-- R24, R25: the results are the same in both states. -/
def SameResults (s t : State) : Prop := t.r0 = s.r0 ∧ t.r1 = s.r1 ∧ t.r2 = s.r2 ∧ t.attempts = s.attempts

/-- R69, R70: the step from `s` to `t` completes the running command. -/
def Completes (s t : State) : Prop := s.busy = true ∧ t.busy = false ∧ t.status.done = true

/-- R67, R115: with respect to the running command, a turn completes it, clears RSACORE, or leaves the results, and the command if one runs. -/
theorem TurnEffect.results {s t : State} {turn : Turn} (h : TurnEffect s turn t) :
    (SameResults s t ∧ (s.busy = true → t.busy = true)) ∨ Completes s t ∨ Cleared t := by
  cases h with
  | held | reset => exact .inr (.inr (cleared_hardReset _))
  | released | stayed => exact .inl ⟨⟨rfl, rfl, rfl, rfl⟩, id⟩
  | host hr h =>
    cases h with
    | answered | ignored | operand | seeded | acknowledged | dropped | configured => exact .inl ⟨⟨rfl, rfl, rfl, rfl⟩, id⟩
    | issued => exact .inl ⟨⟨rfl, rfl, rfl, rfl⟩, fun _ => rfl⟩
    | softReset => exact .inr (.inr (cleared_softReset s _))
    | aborted hctrl habort hs => exact .inr (.inl ⟨s.busy_running _ hs, rfl, rfl⟩)
  | command hr hturn hs h =>
    cases h with
    | nop | failed | completed => exact .inr (.inl ⟨s.busy_running _ hs, rfl, rfl⟩)
    | drew => exact .inl ⟨⟨rfl, rfl, rfl, rfl⟩, fun _ => rfl⟩

/-- R24, R115: the same of a step. -/
theorem step_results {s t : State} (h : step s = .next t) :
    (SameResults s t ∧ (s.busy = true → t.busy = true)) ∨ Completes s t ∨ Cleared t := by
  obtain ⟨turn, rest, -, heffect⟩ := step_effect h
  exact heffect.results

/-- Settles O44: a step leaves the results, completes a command or resets. -/
theorem resultsChangeOnlyAtCompletion : Obligations.ResultsChangeOnlyAtCompletion := fun _ _ hstep =>
  (step_results hstep).imp_left And.left

/-- Settles O47: a step that leaves the results leaves the command running. -/
theorem commandEndsByCompletionOrReset : Obligations.CommandEndsByCompletionOrReset := by
  intro s t hstep hbusy hidle
  obtain ⟨-, hstays⟩ | ⟨-, -, hdone⟩ | ⟨hr0, hr1, hr2, hattempts, -, hstatus⟩ := step_results hstep
  · exact absurd (hstays hbusy) (by simp [hidle])
  · exact .inl hdone
  · exact .inr ⟨hstatus, hr0, hr1, hr2, hattempts⟩

/-- R23, R24: the operand registers and CTRL are the same in both states. -/
def SameOperands (s t : State) : Prop :=
  t.a = s.a ∧ t.b = s.b ∧ t.m = s.m ∧ t.c = s.c ∧ t.retryLimit = s.retryLimit ∧ t.ctrl = s.ctrl

/-- R23: no step of a command writes an operand register. -/
theorem CommandEffect.operands {s t : State} {run : Run} (h : CommandEffect s run t) : SameOperands s t := by
  cases h <;> exact ⟨rfl, rfl, rfl, rfl, rfl, rfl⟩

/-- R23: nor does any turn of the sequencer or of the entropy source. -/
theorem TurnEffect.operands {s t : State} {turn : Turn} (hr : s.rst = false) (hturn : turn = .sequencer ∨ ∃ w, turn = .entropy w)
    (h : TurnEffect s turn t) : SameOperands s t := by
  cases h with
  | held hr' => exact absurd hr' (by simp [hr])
  | reset | released | host => simp at hturn
  | stayed => exact ⟨rfl, rfl, rfl, rfl, rfl, rfl⟩
  | command _ _ _ h => exact h.operands

/-- Settles O45: the turn of such an inbox is the sequencer's or the entropy source's. -/
theorem commandsWriteNoOperandRegister : Obligations.CommandsWriteNoOperandRegister := by
  intro s t hstep hr hinbox
  obtain ⟨turn, rest, hnext, heffect⟩ := step_effect hstep
  refine TurnEffect.operands (s := s.withInbox rest) hr ?_ heffect
  obtain hi | ⟨-, hturn⟩ := hnext
  · obtain hi' | ⟨rest', hi'⟩ | ⟨w, rest', hi'⟩ := hinbox <;> rw [hi] at hi' <;> cases hi'
    · exact .inl rfl
    · exact .inr ⟨w, rfl⟩
  · exact .inl hturn

/-- R28: no step of a command writes CMD_OVR. -/
theorem CommandEffect.cmdOvr_eq {s t : State} {run : Run} (h : CommandEffect s run t) : t.status.cmdOvr = s.status.cmdOvr := by
  cases h <;> rfl

/-- R28: a turn that moves CMD_OVR is a dropped command word, a write of 1 to it, or a reset. -/
theorem TurnEffect.cmdOvr {s t : State} {turn : Turn} (h : TurnEffect s turn t) :
    t.status.cmdOvr = s.status.cmdOvr ∨ Cleared t ∨ ∃ addr bytes v, turn = .host (.write addr bytes v) ∧
      (windowOffset addr = some 0x08 ∧ s.busy = true ∧ t.status.cmdOvr = true ∨
        windowOffset addr = some 0x18 ∧ t.status.cmdOvr = (s.status.cmdOvr && !v.getLsbD 6)) := by
  cases h with
  | held | reset => exact .inr (.inl (cleared_hardReset _))
  | released | stayed => exact .inl rfl
  | command hr hturn hs h => exact .inl h.cmdOvr_eq
  | host hr h =>
    cases h with
    | answered | ignored | operand | seeded | issued | configured | aborted => exact .inl rfl
    | acknowledged hstatus => exact .inr (.inr ⟨_, _, _, rfl, .inr ⟨hstatus, rfl⟩⟩)
    | dropped hcmd hbusy => exact .inr (.inr ⟨_, _, _, rfl, .inl ⟨hcmd, hbusy, rfl⟩⟩)
    | softReset => exact .inr (.inl (cleared_softReset s _))

/-- R20: a STATUS of 0 has CMD_OVR 0. -/
theorem State.cmdOvr_of_statusWord_zero {s : State} (h : s.statusWord = 0#64) : s.status.cmdOvr = false := by
  have hbit := s.statusWord_getLsbD 6
  rw [h] at hbit
  simpa using hbit.symm

/-- Settles O46: a dropped word can only raise CMD_OVR, a write of STATUS or a reset can only lower it. -/
theorem overrunFlagOnlyFromDroppedWord : Obligations.OverrunFlagOnlyFromDroppedWord := by
  intro s t hstep
  obtain ⟨turn, rest, hnext, heffect⟩ := step_effect hstep
  obtain hsame | hcleared | ⟨addr, bytes, v, rfl, hwrite⟩ := heffect.cmdOvr
  · have hsame : t.status.cmdOvr = s.status.cmdOvr := hsame
    exact ⟨fun hlow hrises => by simp [hsame, hlow] at hrises, fun hhigh hfalls => by simp [hsame, hhigh] at hfalls⟩
  · obtain ⟨-, -, -, -, -, hstatus⟩ := hcleared
    exact ⟨fun _ hrises => absurd hrises (by simp [State.cmdOvr_of_statusWord_zero hstatus]), fun _ _ => .inl hstatus⟩
  · have hi : s.inbox = .host (.write addr bytes v) :: rest := hnext.resolve_right (by simp)
    obtain ⟨hcmd, hbusy, hset⟩ | ⟨hstatus, hclear⟩ := hwrite
    · exact ⟨fun _ _ => ⟨hbusy, addr, bytes, v, rest, hi, hcmd⟩, fun _ hfalls => absurd hset (by simp [hfalls])⟩
    · have hclear : t.status.cmdOvr = (s.status.cmdOvr && !v.getLsbD 6) := hclear
      refine ⟨fun hlow hrises => absurd hclear (by simp [hlow, hrises]), fun hhigh hfalls => ?_⟩
      exact .inr ⟨addr, bytes, v, rest, hi, hstatus, by simpa [hhigh, hfalls] using hclear⟩

/-- Settles O48: while a command runs, every effect of a host access but ABORT and SRST leaves the sequencer as it is. -/
theorem hostCannotTouchRunningCommand : Obligations.HostCannotTouchRunningCommand := by
  intro s t access hbusy haccess
  cases State.hostAccess_effect haccess with
  | answered | ignored | operand | acknowledged | dropped | configured => exact .inl rfl
  | seeded hidle => exact .inl rfl
  | issued hidle => exact absurd hbusy (by simp [hidle])
  | softReset hctrl hsrst => exact .inr ⟨rfl, _, _, _, rfl, hctrl, .inr hsrst⟩
  | aborted hctrl habort hs => exact .inr ⟨rfl, _, _, _, rfl, hctrl, .inl habort⟩

end Sys2Proof.Machine
end

section
/-! The register window: what reads answer, which bits writes replace, and what both leave alone (10_state.md rules R16 to R26; 20_memory.md rules
R41 to R46; 70_reset_and_hazards.md rules R114, R115, R121). -/

namespace Sys2Proof.Machine

open Sys2Proof

/-- R46: the step of an admitted host read while `rst` is released. -/
theorem step_read {off bytes : Nat} {rest : List Turn} (s : State) (hr : s.rst = false) (ho : off < 0x100)
    (ha : accessAdmitted off bytes = true) (hi : s.inbox = .host (.read (Config.rsacoreBase + off) bytes) :: rest) :
    step s = .next ({ s with inbox := rest }.afterRead off bytes) := by
  rw [step_host s _ rest hr hi, State.hostAccess_read _ _ _ ho, if_pos ha]

/-- R43: an admitted read answers the presented bits of the window there. -/
theorem State.memRead_of_admitted {off bytes : Nat} (s : State) (ha : accessAdmitted off bytes = true) :
    s.memRead off bytes = ⟨false, readLanes (s.windowWord off) off bytes⟩ :=
  if_pos ha

/-- Settles O30: the step of an admitted access is that access, and a read writes the model's own fields only. -/
theorem admittedAccessGoesOn : Obligations.AdmittedAccessGoesOn := by
  intro s off bytes rest ho hadmitted hr
  have ha := (accessAdmitted_iff off bytes).2 hadmitted
  refine ⟨fun hi => ⟨step_read s hr ho ha hi, fun t hstep => ?_, by rw [s.memRead_of_admitted ha]⟩, fun v hi => step_write s hr ho ha hi⟩
  rw [← Host.Outcome.next.inj ((step_read s hr ho ha hi).symm.trans hstep)]
  rfl

/-- R41: a byte of what an access reads: the register's byte there, 0 beyond the access's width. -/
theorem readLanes_byte (v : Word) (off : Nat) {bytes : Nat} (k : Nat) (hbytes : 8 * bytes ≤ 64) :
    (readLanes v off bytes).extractLsb' (8 * k) 8 = if k < bytes then v.extractLsb' (8 * (off % 8 + k)) 8 else 0#8 := by
  refine BitVec.eq_of_getLsbD_eq fun i hi => ?_
  rw [BitVec.getLsbD_extractLsb', readLanes_getLsbD v off bytes _ hbytes]
  split
  case isTrue hk =>
    have hlane : 8 * (off % 8) + (8 * k + i) = 8 * (off % 8 + k) + i := by omega
    have hwidth : 8 * k + i < 8 * bytes := by omega
    rw [BitVec.getLsbD_extractLsb', hlane, decide_eq_true hwidth, Bool.true_and]
  case isFalse hk =>
    have hwidth : ¬ 8 * k + i < 8 * bytes := by omega
    simp [hwidth]

/-- Settles O31: an admitted read answers the presented bytes of the window. -/
theorem readIsLittleEndian : Obligations.ReadIsLittleEndian := by
  intro s off bytes k hadmitted _
  rw [s.memRead_of_admitted ((accessAdmitted_iff off bytes).2 hadmitted)]
  exact readLanes_byte _ off k (by omega)

/-- R41: a 4-byte access reads the half of the register there. -/
theorem readLanes_half (v : Word) (off : Nat) : readLanes v off 4 = (v.extractLsb' (8 * (off % 8)) 32).setWidth 64 := by
  refine BitVec.eq_of_getLsbD_eq fun i hi => ?_
  rw [readLanes_getLsbD v off 4 i (by omega), BitVec.getLsbD_setWidth, BitVec.getLsbD_extractLsb', decide_eq_true hi, Bool.true_and]

/-- R26: there is no register at 0x70 and above. -/
theorem regAt_reserved {off : Nat} (h : 0x70 ≤ off) : regAt off = none := by
  cases hr : regAt off with
  | none => rfl
  | some r =>
    have hoffset := Reg.offset_eq_of_regAt hr
    have hlt := r.offset_window.2
    omega

/-- R16: both halves of a register are its own. -/
theorem regAt_congr {off off' : Nat} (h : off / 8 = off' / 8) : regAt off = regAt off' := by
  rw [regAt, h, ← regAt]

/-- R41, R43: a 4-byte read answers the half there of what the 8-byte read answers. -/
theorem State.memRead_half (s : State) {k half : Nat} (hhalf : half = 0 ∨ half = 4) :
    s.memRead (8 * k + half) 4 = ⟨false, ((s.memRead (8 * k) 8).data.extractLsb' (8 * half) 32).setWidth 64⟩ := by
  have ha : accessAdmitted (8 * k + half) 4 = true := (accessAdmitted_iff _ _).2 (.inl ⟨rfl, by omega⟩)
  have hlane : (8 * k + half) % 8 = half := by omega
  have hwindow : s.windowWord (8 * k + half) = s.windowWord (8 * k) := by
    rw [State.windowWord, regAt_congr (show (8 * k + half) / 8 = 8 * k / 8 by omega), ← State.windowWord]
  rw [s.memRead_of_admitted ha, s.memRead_whole (8 * k) (by omega), readLanes_half, hlane, hwindow]

/-- R26: every admitted read of a reserved offset answers 0. -/
theorem State.memRead_reserved (s : State) {off bytes : Nat} (h : 0x70 ≤ off) (ha : accessAdmitted off bytes = true) :
    s.memRead off bytes = ⟨false, 0#64⟩ := by
  rw [s.memRead_of_admitted ha, State.windowWord, regAt_reserved h, readLanes_zero]

/-- R22: SEED reads its value while no command runs. -/
theorem State.seedWord_of_idle {s : State} (h : s.busy = false) : s.seedWord = s.seed :=
  if_neg (by simp [h])

/-- Settles O32: an 8-byte read answers the register's readable value, a 4-byte read its half, a reserved offset 0. -/
theorem windowReadsRegisters : Obligations.WindowReadsRegisters := by
  intro s
  refine ⟨s.memRead_whole 0x00 rfl, s.memRead_whole 0x08 rfl, s.memRead_whole 0x10 rfl, s.memRead_whole 0x18 rfl, s.memRead_whole 0x20 rfl,
    fun hidle => ?_, s.memRead_whole 0x30 rfl, s.memRead_whole 0x38 rfl, s.memRead_whole 0x40 rfl, s.memRead_whole 0x48 rfl,
    s.memRead_whole 0x50 rfl, s.memRead_whole 0x58 rfl, s.memRead_whole 0x60 rfl, s.memRead_whole 0x68 rfl,
    fun k _ => ⟨s.memRead_half (.inl rfl), s.memRead_half (.inr rfl)⟩,
    fun off bytes hlo _ hadmitted => s.memRead_reserved hlo ((accessAdmitted_iff off bytes).2 hadmitted)⟩
  exact (s.memRead_whole 0x28 rfl).trans (congrArg (BusReply.mk false) (State.seedWord_of_idle hidle))

/-- R20: ERRCODE's field of STATUS. -/
theorem State.statusWord_errcode (s : State) : s.statusWord.extractLsb' 8 4 = s.status.errcode.code := by
  refine BitVec.eq_of_getLsbD_eq fun i hi => ?_
  rw [BitVec.getLsbD_extractLsb', s.statusWord_getLsbD]
  interval_cases i <;> simp

/-- R20: LASTOP's field of STATUS. -/
theorem State.statusWord_lastop (s : State) : s.statusWord.extractLsb' 16 4 = s.status.lastop := by
  refine BitVec.eq_of_getLsbD_eq fun i hi => ?_
  rw [BitVec.getLsbD_extractLsb', s.statusWord_getLsbD]
  interval_cases i <;> simp

/-- R20: the reserved bits of STATUS read 0. -/
theorem State.statusWord_reserved (s : State) {k : Nat} (h : k = 7 ∨ (12 ≤ k ∧ k ≤ 15) ∨ 20 ≤ k) : s.statusWord.getLsbD k = false := by
  rw [s.statusWord_getLsbD]
  obtain rfl | ⟨hlo, hhi⟩ | hhi := h
  · simp
  · have herrcode : s.status.errcode.code.getLsbD (k - 8) = false := BitVec.getLsbD_of_ge _ _ (by omega)
    simp [herrcode, show ¬ 16 ≤ k by omega]
    omega
  · have herrcode : s.status.errcode.code.getLsbD (k - 8) = false := BitVec.getLsbD_of_ge _ _ (by omega)
    have hlastop : s.status.lastop.getLsbD (k - 16) = false := BitVec.getLsbD_of_ge _ _ (by omega)
    simp [herrcode, hlastop]
    omega

/-- R20, R105: the acknowledgement, field by field. -/
theorem State.acknowledge_eq (s : State) (v : Word) : s.acknowledge v = { s with status := { s.status with
    done := if v.getLsbD 1 then false else s.status.done
    cmdOvr := if v.getLsbD 6 then false else s.status.cmdOvr } } := by
  unfold State.acknowledge Status.acknowledged
  cases v.getLsbD 1 <;> cases v.getLsbD 6 <;> simp

/-- R44: a write of STATUS that does not present bits [31:0] is ignored. -/
theorem State.memWrite_status_high {off bytes : Nat} (s : State) (v : Word) (ha : accessAdmitted off bytes = true)
    (hr : regAt off = some .status) (hl : presentsLow off = false) : s.memWrite off bytes v = s :=
  (s.memWrite_of_regAt v ha hr).trans (if_neg (by simp [hl]))

/-- Settles O33: the bits of STATUS as read, and the acknowledgement that its low half takes. -/
theorem statusRegisterBits : Obligations.StatusRegisterBits := by
  refine ⟨fun s v hv => ?_, fun s bytes v hbytes => ⟨?_, s.memWrite_status_high v (by decide) rfl rfl⟩⟩
  · have hstatus : v = s.statusWord := hv.trans (congrArg BusReply.data (s.memRead_whole 0x18 rfl))
    subst hstatus
    refine ⟨?_, ?_, ?_, ?_, ?_, ?_, ?_, s.statusWord_errcode, s.statusWord_lastop, fun k => s.statusWord_reserved⟩ <;>
      rw [s.statusWord_getLsbD] <;> simp
  · rw [s.memWrite_status_low v (accessAdmitted_of_aligned rfl hbytes) rfl rfl, s.acknowledge_eq]

/-- R45: a write of CTRL that does not present bits [31:0] is ignored. -/
theorem State.memWrite_ctrl_high {off bytes : Nat} (s : State) (v : Word) (ha : accessAdmitted off bytes = true)
    (hr : regAt off = some .ctrl) (hl : presentsLow off = false) : s.memWrite off bytes v = s :=
  (s.memWrite_of_regAt v ha hr).trans (if_neg (by simp [hl]))

/-- Settles O34: the bits of CTRL as read, and the write of ENT_SRC and IRQ_EN that its low half takes. -/
theorem ctrlRegisterBits : Obligations.CtrlRegisterBits := by
  refine ⟨fun s v hv => ?_, fun s bytes v hbytes habort hsrst => ?_, fun s v => s.memWrite_ctrl_high v (by decide) rfl rfl⟩
  · have hctrl : v = s.ctrlWord := hv.trans (congrArg BusReply.data (s.memRead_whole 0x10 rfl))
    subst hctrl
    refine ⟨?_, ?_, fun k h8 h9 => ?_⟩ <;> rw [s.ctrlWord_getLsbD]
    · simp
    · simp
    · simp [h8, h9]
  · rw [s.memWrite_ctrl_low v (accessAdmitted_of_aligned rfl hbytes) rfl rfl, s.writeCtrl_of_no_abort hsrst (.inl habort)]
    rfl

/-- R44: which bits a write replaces depends on the offset within the register only. -/
theorem mergeLanes_congr {off off' : Nat} (h : off % 8 = off' % 8) (old v : Word) (bytes : Nat) :
    mergeLanes old v off bytes = mergeLanes old v off' bytes := by
  simp only [mergeLanes, laneMask, placeLanes, h]

/-- R44: an admitted write at either half of a register is the write of that register. -/
theorem State.memWrite_half {base half bytes : Nat} {r : Reg} (s : State) (v : Word) (hbase : base % 8 = 0) (hr : regAt base = some r)
    (hhalf : bytes = 8 ∧ half = 0 ∨ bytes = 4 ∧ half = 0 ∨ bytes = 4 ∧ half = 4) :
    s.memWrite (base + half) bytes v = s.writeReg r (base + half) bytes v :=
  s.memWrite_of_regAt v ((accessAdmitted_iff _ _).2 (by omega)) (by rw [regAt_congr (show (base + half) / 8 = base / 8 by omega), hr])

/-- Settles O35: the presented bits are those of the offset within the register, for each of the six registers. -/
theorem operandWriteReplacesPresentedBits : Obligations.OperandWriteReplacesPresentedBits := by
  intro s bytes half v hhalf
  have hlane : half % 8 = half := by omega
  have merge (base : Nat) (hbase : base % 8 = 0) (old : Word) : mergeLanes old v (base + half) bytes = mergeLanes old v half bytes :=
    mergeLanes_congr (by omega) old v bytes
  refine ⟨fun old => mergeLanes old v half bytes, fun old k hk => ?_, ?_, ?_, ?_, ?_, ?_, fun hidle => ?_⟩
  · rw [mergeLanes_getLsbD half bytes old v k hk (by omega), hlane]
  · rw [s.memWrite_half v rfl rfl hhalf, State.writeReg, merge 0x20 rfl]
  · rw [s.memWrite_half v rfl rfl hhalf, State.writeReg, merge 0x30 rfl]
  · rw [s.memWrite_half v rfl rfl hhalf, State.writeReg, merge 0x38 rfl]
  · rw [s.memWrite_half v rfl rfl hhalf, State.writeReg, merge 0x40 rfl]
  · rw [s.memWrite_half v rfl rfl hhalf, State.writeReg, merge 0x48 rfl]
  · rw [s.memWrite_half v rfl rfl hhalf, State.writeReg, hidle, if_neg (by decide), merge 0x28 rfl]

/-- R26, R44: a write at a register that ignores it, or at none, changes nothing. -/
theorem State.memWrite_ignored {off : Nat} (s : State) (bytes : Nat) (v : Word)
    (h : ∀ r, regAt off = some r → s.writeReg r off bytes v = s) : s.memWrite off bytes v = s := by
  unfold State.memWrite
  split
  · cases hr : regAt off with
    | none => rfl
    | some r => exact h r hr
  · rfl

/-- Settles O36: the offsets are SEED's, whose writes a running command refuses and whose reads then use up a free value. -/
theorem seedWhileBusy : Obligations.SeedWhileBusy := by
  intro s off bytes v hbusy hoff
  have hseed : regAt off = some .seed := by obtain rfl | rfl := hoff <;> rfl
  refine ⟨s.memWrite_ignored bytes v fun r hr => ?_, ?_⟩
  · obtain rfl : Reg.seed = r := Option.some.inj (hseed.symm.trans hr)
    exact if_pos hbusy
  · unfold State.afterRead
    rw [if_pos ⟨hseed, hbusy⟩]

/-- Settles O37: each register at these offsets ignores its writes. -/
theorem readOnlyWritesIgnored : Obligations.ReadOnlyWritesIgnored := by
  intro s off bytes v hoff
  refine s.memWrite_ignored bytes v fun r hr => ?_
  have hoffset := Reg.offset_eq_of_regAt hr
  cases r with
  | id | r0 | r1 | r2 | attempts => rfl
  | cmd | ctrl | status | retryLimit | seed | a | b | m | c =>
    simp only [Reg.offset] at hoffset
    omega

/-- R43: a read changes no register's readable value, but the free value of SEED while a command runs. -/
theorem State.regValue_afterRead (s : State) (off bytes : Nat) {r : Reg} (h : s.busy = false ∨ r ≠ .seed) :
    (s.afterRead off bytes).regValue r = s.regValue r := by
  cases r with
  | seed =>
    have hidle : s.busy = false := h.resolve_right (by simp)
    exact (State.seedWord_of_idle (s := s.afterRead off bytes) hidle).trans (State.seedWord_of_idle hidle).symm
  | id | cmd | ctrl | status | retryLimit | a | b | m | c | r0 | r1 | r2 | attempts => rfl

/-- R43: so a later read answers what it would have answered before. -/
theorem State.memRead_afterRead (s : State) (off bytes : Nat) {off' : Nat} (bytes' : Nat)
    (h : s.busy = false ∨ regAt off' ≠ some .seed) : (s.afterRead off bytes).memRead off' bytes' = s.memRead off' bytes' := by
  have hwindow : (s.afterRead off bytes).windowWord off' = s.windowWord off' := by
    unfold State.windowWord
    cases hr : regAt off' with
    | none => rfl
    | some r => exact s.regValue_afterRead off bytes (h.imp_right fun hne hseed => hne (hseed ▸ hr))
  unfold State.memRead
  rw [hwindow]

/-- Settles O38: outside SEED's eight bytes, or with no command running, no read depends on the model's own fields. -/
theorem readHasNoSideEffect : Obligations.ReadHasNoSideEffect := by
  refine fun s off bytes => ⟨rfl, fun off' bytes' h => s.memRead_afterRead off bytes bytes' (h.imp_right fun hoff hseed => ?_)⟩
  have hoffset := Reg.offset_eq_of_regAt hseed
  simp only [Reg.offset] at hoffset
  omega

/-- Settles O40: SRST is a hard reset with ENT_SRC and IRQ_EN written after it. -/
theorem softResetRestoresReset : Obligations.SoftResetRestoresReset := by
  intro s bytes v hbytes hsrst
  rw [s.memWrite_ctrl_low v (accessAdmitted_of_aligned rfl hbytes) rfl rfl, s.writeCtrl_srst hsrst]
  exact ⟨rfl, s.hardReset_atReset⟩

/-- Settles O41: the reset state is what a hard reset of itself leaves. -/
theorem resetValues : Obligations.ResetValues :=
  ⟨State.reset.hardReset_atReset, State.reset.memRead_whole 0x00 rfl, rfl⟩

end Sys2Proof.Machine
end

section
/-! The reference algorithms: the bit-at-a-time product and the Miller-Rabin test (41_modarith.md rule R80; 42_prime.md rule R92). -/

namespace Sys2Proof.Machine

open Sys2Proof

/-- R80: the sum of two reduced values, reduced without exceeding the modulus. -/
theorem addMod_eq {r a m : Nat} (hr : r < m) (ha : a < m) : addMod r a m = (r + a) % m := by
  unfold addMod
  split
  case isTrue hge => rw [Nat.mod_eq_sub_mod (by omega), Nat.mod_eq_of_lt (by omega)]; omega
  case isFalse hlt => rw [Nat.mod_eq_of_lt (by omega)]

/-- R80: doubling is the sum of a value with itself. -/
theorem doubleMod_eq {r m : Nat} (hr : r < m) : doubleMod r m = (r + r) % m :=
  addMod_eq hr hr

/-- R80: one bit of the product, reduced. -/
theorem serialMul_step {r a m : Nat} (bit : Bool) (hr : r < m) (ha : a < m) :
    (if bit then addMod (doubleMod r m) a m else doubleMod r m) = (2 * r + a * bit.toNat) % m := by
  have hd : doubleMod r m = 2 * r % m := by rw [doubleMod_eq hr, two_mul]
  have hlt : doubleMod r m < m := hd ▸ Nat.mod_lt _ (by omega)
  cases bit with
  | false => simpa using hd
  | true =>
    rw [if_pos rfl, addMod_eq hlt ha, hd, Nat.mod_add_mod]
    simp

/-- R80: the loop over the low `k` bits of `b`, from a reduced value. -/
theorem serialMulLoop_eq {a m : Nat} (b : Nat) (ha : a < m) (k : Nat) {r : Nat} (hr : r < m) :
    serialMulLoop a b m k r = (r * 2 ^ k + a * (b % 2 ^ k)) % m := by
  induction k generalizing r with
  | zero => simp [serialMulLoop, Nat.mod_one, Nat.mod_eq_of_lt hr]
  | succ k ih =>
    have hstep := serialMul_step (b.testBit k) hr ha
    have hmod : (2 * r + a * (b.testBit k).toNat) % m ≡ 2 * r + a * (b.testBit k).toNat [MOD m] := Nat.mod_modEq _ _
    rw [serialMulLoop, hstep, ih (Nat.mod_lt _ (by omega))]
    calc ((2 * r + a * (b.testBit k).toNat) % m * 2 ^ k + a * (b % 2 ^ k)) % m
        = ((2 * r + a * (b.testBit k).toNat) * 2 ^ k + a * (b % 2 ^ k)) % m := (hmod.mul_right _).add_right _
      _ = (r * 2 ^ (k + 1) + a * (b % 2 ^ (k + 1))) % m := by
        rw [Nat.toNat_testBit, Nat.mod_pow_succ]
        congr 1
        ring

/-- Settles O52: after all 64 bits the loop holds the product of the reduced operand, reduced. -/
theorem serialProductAgrees : Obligations.SerialProductAgrees := by
  intro a b m _ hb _ hm
  rw [serialMul, serialMulLoop_eq b (Nat.mod_lt a hm) 64 hm, Nat.mod_eq_of_lt hb, zero_mul, zero_add, Nat.mod_mul_mod]

/-- R92: what the splitting of `n - 1` keeps, whatever its fuel. -/
theorem oddPart_mul (fuel d s : Nat) : (oddPart fuel d s).1 * 2 ^ (oddPart fuel d s).2 = d * 2 ^ s := by
  induction fuel generalizing d s with
  | zero => rfl
  | succ fuel ih =>
    rw [oddPart]
    split
    case isTrue => rfl
    case isFalse hodd =>
      rw [ih, pow_succ']
      calc d / 2 * (2 * 2 ^ s) = d / 2 * 2 * 2 ^ s := (mul_assoc _ _ _).symm
        _ = d * 2 ^ s := by rw [Nat.div_mul_cancel (by omega)]

/-- R92: modulo a prime, 1 has no square roots but 1 and -1. -/
theorem eq_one_or_eq_pred_of_sq {p x : Nat} (hp : Nat.Prime p) (hx : x < p) (hsq : x * x ≡ 1 [MOD p]) : x = 1 ∨ x = p - 1 := by
  cases x with
  | zero =>
    have hdvd : p ∣ 1 := Nat.modEq_zero_iff_dvd.1 hsq.symm
    exact absurd (Nat.dvd_one.1 hdvd) hp.one_lt.ne'
  | succ y =>
    have hfactor : (y + 1) * (y + 1) = y * (y + 2) + 1 := by ring
    have hdvd : p ∣ y * (y + 2) := Nat.modEq_zero_iff_dvd.1 (Nat.ModEq.add_right_cancel' 1 (hfactor ▸ hsq))
    obtain hy | hy := hp.dvd_mul.1 hdvd
    · exact .inl (by rw [Nat.eq_zero_of_dvd_of_lt hy (by omega)])
    · have hle := Nat.le_of_dvd (by omega) hy
      exact .inr (by omega)

/-- R92: a value whose `2 ^ s`-th power is 1 modulo a prime is 1, or reaches -1 in less than `s` squarings. -/
theorem reachesMinusOne_of_pow {p s x : Nat} (hp : Nat.Prime p) (hx : x < p) (hpow : x ^ 2 ^ s ≡ 1 [MOD p]) :
    x = 1 ∨ reachesMinusOne p s x = true := by
  induction s generalizing x with
  | zero =>
    rw [pow_zero, pow_one] at hpow
    exact .inl (hpow.eq_of_lt_of_lt hx hp.one_lt)
  | succ s ih =>
    have hsq : (x * x % p) ^ 2 ^ s ≡ 1 [MOD p] :=
      calc (x * x % p) ^ 2 ^ s ≡ (x * x) ^ 2 ^ s [MOD p] := (Nat.mod_modEq _ _).pow _
        _ = x ^ 2 ^ (s + 1) := by rw [← pow_two, ← pow_mul, pow_succ']
        _ ≡ 1 [MOD p] := hpow
    obtain hone | hreach := ih (Nat.mod_lt _ hp.pos) hsq
    · have hroot : x * x ≡ 1 [MOD p] := (Nat.mod_modEq _ _).symm.trans (by rw [hone])
      obtain h | h := eq_one_or_eq_pred_of_sq hp hx hroot
      · exact .inl h
      · exact .inr (by simp [reachesMinusOne, h])
    · exact .inr (by simp [reachesMinusOne, hreach])

/-- R92: every base passes for a prime, by Fermat's little theorem. -/
theorem passesBase_of_prime {p d s : Nat} (a : Nat) (hp : Nat.Prime p) (hd : d < 2 ^ 64) (hsplit : d * 2 ^ s = p - 1) :
    passesBase p d s a = true := by
  rw [passesBase, modExp_eq a d p hd]
  by_cases hdvd : p ∣ a
  · simp [Nat.mod_eq_zero_of_dvd hdvd]
  · have hfermat : (a ^ d % p) ^ 2 ^ s ≡ 1 [MOD p] :=
      calc (a ^ d % p) ^ 2 ^ s ≡ (a ^ d) ^ 2 ^ s [MOD p] := (Nat.mod_modEq _ _).pow _
        _ = a ^ (p - 1) := by rw [← pow_mul, hsplit]
        _ ≡ 1 [MOD p] := Nat.ModEq.pow_card_sub_one_eq_one hp (hp.coprime_iff_not_dvd.2 hdvd).symm
    obtain h | h := reachesMinusOne_of_pow hp (Nat.mod_lt _ hp.pos) hfermat
    · simp [h]
    · simp [h]

/-- Settles O53: an odd prime passes each of the three bases. -/
theorem millerRabinAcceptsEveryPrime : Obligations.MillerRabinAcceptsEveryPrime := by
  intro n hn hp
  have h2 := hp.two_le
  unfold millerRabin
  rw [if_neg (by omega)]
  split
  case isTrue => rfl
  case isFalse hne =>
    have hodd : ¬ n % 2 = 0 := by have := hp.eq_two_or_odd; omega
    have hsplit := oddPart_mul 32 (n - 1) 0
    rw [pow_zero, mul_one] at hsplit
    have hd : (oddPart 32 (n - 1) 0).1 < 2 ^ 64 := by
      have := Nat.le_mul_of_pos_right (oddPart 32 (n - 1) 0).1 (Nat.two_pow_pos (oddPart 32 (n - 1) 0).2)
      omega
    rw [if_neg hodd]
    simp only [passesBase_of_prime _ hp hd hsplit, Bool.and_self]

end Sys2Proof.Machine
end

section
/-! The turns that run a command's step (40_control.md rules R65, R68; 42_prime.md rules R86, R88), and an unending schedule as inboxes
(20_memory.md rule R48; log 20). -/

namespace Sys2Proof.Machine

open Sys2Proof

/-- R68: the sequencer's turn is the step of the running command. -/
theorem State.turn_sequencer {run : Run} (s : State) (hr : s.rst = false) (hs : s.seq = .running run) :
    s.turn .sequencer = exec run.op.op s := by
  simp [State.turn, hr, State.liveTurn, State.sequencerTurn, hs]

/-- R86, R88: the delivery of a requested word is the step of the running command with the word on the port. -/
theorem State.turn_entropy_requested {run : Run} (s : State) (w : Word32) (hr : s.rst = false) (hs : s.seq = .running run)
    (hq : run.request = true) :
    s.turn (.entropy w) = exec run.op.op { s with seq := .running { run with request := false, port := some w } } := by
  simp [State.turn, hr, State.liveTurn, State.entropyTurn, hs, hq]

/-- R86, log 3: a word that is not requested is not taken. -/
theorem State.turn_entropy_unrequested {run : Run} (s : State) (w : Word32) (hr : s.rst = false) (hs : s.seq = .running run)
    (hq : run.request = false) : s.turn (.entropy w) = .next s := by
  simp [State.turn, hr, State.liveTurn, State.entropyTurn, hs, hq]

/-- Log 1: the state that `withFetchWord` gives for a whole word is the one that starts that word. -/
theorem State.withFetchWord_word (s : State) (w : Word32) : s.withFetchWord 32 w.toNat = s.startWith w := by
  rw [State.withFetchWord, Nat.mod_eq_of_lt w.isLt, BitVec.ofNat_toNat, BitVec.setWidth_eq]

/-- Settles O7: each of the three states has a running command and the sequencer's turn next. -/
theorem stepRunsDecodedCommand : Obligations.StepRunsDecodedCommand := by
  refine ⟨fun s run rest hr hs hi => ?_, fun s w hr hidle hi => ?_, fun s w => ?_⟩
  · rw [step_cons s _ rest hi]
    exact State.turn_sequencer _ hr hs
  · rw [s.deliverCmd_of_not_busy w hidle]
    exact step_running (s.issue w) _ hr hi rfl
  · rw [s.withFetchWord_word w, step_cons (s.startWith w) .sequencer s.inbox rfl]
    exact State.turn_sequencer ({ s with rst := false }.issue w) rfl rfl

/-- Settles O8: the delivery's turn takes a word exactly when one is requested. -/
theorem deliveryRunsDrawStep : Obligations.DeliveryRunsDrawStep := by
  intro s run w rest hr hs hi
  rw [step_cons s _ rest hi]
  exact ⟨State.turn_entropy_requested _ w hr hs, State.turn_entropy_unrequested _ w hr hs⟩

/-- R48: a run that takes the first turns of an inbox does the same whatever turns come after them, and leaves those there. -/
theorem core_run_append (turns rest : List Turn) (s : State) :
    core.run turns.length (s.withInbox (turns ++ rest)) = outcomeWithInbox rest (core.run turns.length (s.withInbox turns)) := by
  induction turns generalizing s with
  | nil => rfl
  | cons turn turns ih =>
    have hlong := step_withInbox s turn (turns ++ rest)
    have hshort := step_withInbox s turn turns
    rw [List.length_cons, List.cons_append]
    cases h : s.turn turn with
    | next t =>
      rw [h] at hlong hshort
      rw [core_run_succ _ _ _ hlong, core_run_succ _ _ _ hshort]
      exact ih t
    | fault r =>
      rw [h] at hlong hshort
      rw [host_run_fault core _ _ r hlong, host_run_fault core _ _ r hshort]
      rfl
    | refused r =>
      rw [h] at hlong hshort
      rw [host_run_refused core _ _ r hlong, host_run_refused core _ _ r hshort]
      rfl

/-- R48: a run through the first turns of a schedule, with more turns after them. -/
theorem core_run_turns_append (sched : Schedule) (n : Nat) (rest : List Turn) (s : State) :
    core.run n (s.withInbox (sched.turns n ++ rest)) = outcomeWithInbox rest (core.run n (s.withInbox (sched.turns n))) := by
  have hlen : (sched.turns n).length = n := by simp [Schedule.turns]
  have h := core_run_append (sched.turns n) rest s
  rwa [hlen] at h

/-- Settles O57: a turn more in the schedule is a turn more at the end of the inbox, which the steps before it do not see. -/
theorem scheduledRunIsInboxRun : Obligations.ScheduledRunIsInboxRun := by
  intro sched s n hi
  change sched.run s n = core.run n (s.withInbox (sched.turns n))
  induction n with
  | zero => exact congrArg Host.Outcome.next (show s = s.withInbox [] by rw [State.withInbox, ← hi])
  | succ n ih =>
    have hlong := core_run_turns_append sched n [sched n] s
    rw [← Schedule.turns_succ, ← ih] at hlong
    rw [Schedule.run]
    cases h : sched.run s n with
    | next t => rw [h] at hlong; exact (core_run_snoc n _ _ hlong).symm
    | fault r => rw [h] at hlong; exact (core_run_fault n _ r hlong).symm
    | refused r => rw [h] at hlong; exact (core_run_refused n _ r hlong).symm

end Sys2Proof.Machine
end

section
/-! Host programs: their statements' lines and accesses, and their runs (30_encoding.md rules R61 to R64). -/

namespace Sys2Proof.Machine

open Sys2Proof

/-- R64: what a 4-byte line keeps of a value: its low 32 bits, zero above them. -/
def lowHalf (v : Word) : Word := (v.setWidth 32).setWidth 64

/-- R64: the low 32 bits of a value are kept. -/
theorem lowHalf_getLsbD (v : Word) {k : Nat} (h : k < 32) : (lowHalf v).getLsbD k = v.getLsbD k := by
  simp [lowHalf, h, show k < 64 by omega]

/-- R18: the command word of a value is its low 32 bits. -/
theorem lowHalf_commandWord (v : Word) : (lowHalf v).extractLsb' 0 32 = v.extractLsb' 0 32 := by
  refine BitVec.eq_of_getLsbD_eq fun i hi => ?_
  rw [BitVec.getLsbD_extractLsb', BitVec.getLsbD_extractLsb', lowHalf_getLsbD v (by omega)]

/-- R44: a 4-byte access presents the low 32 bits of its value only. -/
theorem mergeLanes_lowHalf (old v : Word) (off : Nat) : mergeLanes old (lowHalf v) off 4 = mergeLanes old v off 4 := by
  have hmask : lowHalf v &&& widthMask 4 = v &&& widthMask 4 := by
    refine BitVec.eq_of_getLsbD_eq fun i _ => ?_
    rw [BitVec.getLsbD_and, BitVec.getLsbD_and, widthMask_getLsbD 4 i (by omega)]
    by_cases hi : i < 32
    · rw [lowHalf_getLsbD v hi]
    · simp [hi]
  rw [mergeLanes, mergeLanes, placeLanes, placeLanes, hmask]

/-- R44, log 18: a 4-byte write has the effect of the low 32 bits of its value. -/
theorem State.writeReg_lowHalf (s : State) (r : Reg) (off : Nat) (v : Word) : s.writeReg r off 4 (lowHalf v) = s.writeReg r off 4 v := by
  have hbit {k : Nat} (hk : k < 32) := lowHalf_getLsbD v hk
  cases r with
  | id | r0 | r1 | r2 | attempts => rfl
  | retryLimit | seed | a | b | m | c => simp only [State.writeReg, mergeLanes_lowHalf]
  | cmd => simp only [State.writeReg, lowHalf_commandWord]
  | ctrl =>
    simp only [State.writeReg, State.writeCtrl, State.setCtrl, hbit (show 0 < 32 by omega), hbit (show 1 < 32 by omega),
      hbit (show 8 < 32 by omega), hbit (show 9 < 32 by omega)]
  | status =>
    simp only [State.writeReg, State.acknowledge, Status.acknowledged, hbit (show 1 < 32 by omega), hbit (show 6 < 32 by omega)]

/-- R44, R64: so does a 4-byte host write. -/
theorem State.hostAccess_lowHalf (s : State) (addr : Nat) (v : Word) :
    s.hostAccess (.write addr 4 (lowHalf v)) = s.hostAccess (.write addr 4 v) := by
  simp only [State.hostAccess, State.accessAt, State.memWrite, State.writeReg_lowHalf, BusAccess.addr]

/-- R61, R64: two accesses with one effect on RSACORE, from every state. -/
def SameAccess (a b : BusAccess) : Prop := ∀ s : State, s.hostAccess a = s.hostAccess b

/-- R61, R64: a statement has neither a line nor an access, or both, and then they have one effect. -/
theorem HostProgram.nextLine_cases (h : HostProgram) : (h.nextLine = none ∧ h.nextAccess = none) ∨
    ∃ line access, h.nextLine = some line ∧ h.nextAccess = some access ∧ SameAccess line.access access := by
  unfold HostProgram.nextLine HostProgram.nextAccess
  cases h.stmts[h.pc]? with
  | none => exact .inl ⟨rfl, rfl⟩
  | some st =>
    cases st with
    | expect | label | bnz | bz | jump | set | halt => exact .inl ⟨rfl, rfl⟩
    | wr | rd | rd32 => exact .inr ⟨_, _, rfl, rfl, fun _ => rfl⟩
    | wr32 r half e => exact .inr ⟨_, _, rfl, rfl, fun s => s.hostAccess_lowHalf _ (h.eval e)⟩

/-- Settles O55: a line stands for its statement's access, of which a 4-byte line keeps the bits that are presented. -/
theorem lineStandsForAccess : Obligations.LineStandsForAccess := by
  intro h s
  obtain ⟨hline, haccess⟩ | ⟨line, access, hline, haccess, hsame⟩ := h.nextLine_cases <;> rw [hline, haccess]
  · exact ⟨iff_of_true rfl rfl, fun line access hl => by cases hl⟩
  · refine ⟨iff_of_false (by simp) (by simp), fun line' access' hl ha => ?_⟩
    rw [← Option.some.inj hl, ← Option.some.inj ha]
    exact hsame s

/-- R61, R18: the statement `WR32 CMD.lo` of an instruction's word delivers that word. -/
theorem State.memWrite_cmdWord (s : State) (w : Word32) : s.memWrite 0x08 4 (w.setWidth 64) = s.deliverCmd w := by
  have hw : (w.setWidth 64).extractLsb' 0 32 = w := by
    rw [BitVec.extractLsb'_setWidth_of_le (by decide), BitVec.extractLsb'_eq_self]
  rw [s.memWrite_cmd_low _ (by decide) rfl rfl, hw]

/-- Settles O54: the expansion writes the instruction's word to CMD, which issues what the word decodes to. -/
theorem notationCmdIssuesCommand : Obligations.NotationCmdIssuesCommand := by
  intro i s hwf hr hidle
  have hturn := HostProgram.turn_live ⟨(PseudoStmt.cmd i).expand, 0, [], false, false⟩ s rfl hr
  have hissue : s.memWrite 0x08 4 ((encode i).setWidth 64) = s.issue (encode i) := by
    rw [s.memWrite_cmdWord, s.deliverCmd_of_not_busy _ hidle]
  refine ⟨_, s.memWrite 0x08 4 ((encode i).setWidth 64), Run.after (s.snapshot (decodeWord (encode i))) [], hturn, ?_,
    decodeWord_encode hwf, rfl⟩
  rw [hissue, s.issue_seq]

/-- R48: accesses with one effect make one turn, under an asserted `rst` too. -/
theorem SameAccess.turn_eq {a b : BusAccess} (h : SameAccess a b) (s : State) : s.turn (.host a) = s.turn (.host b) := by
  unfold State.turn State.resetTurn State.liveTurn
  simp only [h s, h s.hardReset]

/-- R14, R48: a move of another agent is its turn. -/
theorem HostProgram.move_agent {h h' : HostProgram} {s t : State} {m : RunMove} {turn : Turn} (hm : m.agentTurn = some turn)
    (hmove : h.move s m = .next (h', t)) : s.turn turn = .next t := by
  simp only [HostProgram.move, hm] at hmove
  cases ht : s.turn turn <;> rw [ht] at hmove <;> cases hmove
  rfl

/-- R61: a statement with an access is the host's turn with it. -/
theorem HostProgram.turn_access {h h' : HostProgram} {s t : State} {access : BusAccess} (hrunning : h.halted = false)
    (haccess : h.nextAccess = some access) (hturn : h.turn s = .next (h', t)) : s.turn (.host access) = .next t := by
  simp only [HostProgram.turn, hrunning, haccess, Bool.false_eq_true, if_false] at hturn
  cases ht : s.turn (.host access) <;> rw [ht] at hturn <;> cases hturn
  rfl

/-- R62: a statement with no access, or one of a halted program, leaves RSACORE. -/
theorem HostProgram.turn_silent {h h' : HostProgram} {s t : State} (hsilent : h.halted = true ∨ h.nextAccess = none)
    (hturn : h.turn s = .next (h', t)) : t = s := by
  cases hrunning : h.halted with
  | true =>
    simp only [HostProgram.turn, hrunning, if_true] at hturn
    cases hturn
    rfl
  | false =>
    have hnone : h.nextAccess = none := hsilent.resolve_left (by simp [hrunning])
    simp only [HostProgram.turn, hrunning, hnone, Bool.false_eq_true, if_false] at hturn
    cases hturn
    rfl

/-- R64: a move that goes on either leaves RSACORE and gives no line, or is one turn of RSACORE, with a line exactly for the host's access. -/
theorem HostProgram.move_turn {h h' : HostProgram} {s t : State} {m : RunMove} (hmove : h.move s m = .next (h', t)) :
    (t = s ∧ h.moveLines m = [] ∧ m.agentTurn = none) ∨
    ∃ turn, s.turn turn = .next t ∧ [turn].filterMap Turn.hostAccess = (h.moveLines m).map BusLine.access ∧
      [turn].filterMap Turn.otherAgent = [m].filterMap RunMove.agentTurn := by
  cases m with
  | sequencer => exact .inr ⟨_, HostProgram.move_agent rfl hmove, rfl, rfl⟩
  | entropy w => exact .inr ⟨_, HostProgram.move_agent rfl hmove, rfl, rfl⟩
  | reset level => exact .inr ⟨_, HostProgram.move_agent rfl hmove, rfl, rfl⟩
  | statement =>
    have hturn : h.turn s = .next (h', t) := hmove
    cases hrunning : h.halted with
    | true => exact .inl ⟨HostProgram.turn_silent (.inl hrunning) hturn, by simp [HostProgram.moveLines, RunMove.agentTurn, hrunning], rfl⟩
    | false =>
      have hlines : h.moveLines .statement = h.nextLine.toList := by simp [HostProgram.moveLines, RunMove.agentTurn, hrunning]
      obtain ⟨hline, haccess⟩ | ⟨line, access, hline, haccess, hsame⟩ := h.nextLine_cases <;> rw [hlines, hline]
      · exact .inl ⟨HostProgram.turn_silent (.inr haccess) hturn, rfl, rfl⟩
      · exact .inr ⟨.host line.access, (hsame.turn_eq s).trans (HostProgram.turn_access hrunning haccess hturn), rfl, rfl⟩

/-- R64: the first move of a run that goes on, and the run after it. -/
theorem HostProgram.run_cons_next {h : HostProgram} {s : State} {m : RunMove} {moves : List RunMove} {place : HostProgram × State}
    (hrun : (h.run s (m :: moves)).outcome = .next place) :
    ∃ h1 s1, h.move s m = .next (h1, s1) ∧ (h.run s (m :: moves)).lines = h.moveLines m ++ (h1.run s1 moves).lines ∧
      (h1.run s1 moves).outcome = .next place := by
  cases hmove : h.move s m with
  | next after =>
    rw [h.run_cons after.1 s after.2 m moves hmove] at hrun ⊢
    exact ⟨_, _, rfl, rfl, hrun⟩
  | fault r => simp [HostProgram.run, hmove] at hrun
  | refused r => simp [HostProgram.run, hmove] at hrun

/-- Settles O59: the turns are those of the moves that are turns, one after the other. -/
theorem encodingReplaysRun : Obligations.EncodingReplaysRun := by
  intro moves
  induction moves with
  | nil =>
    intro h h' s t hrun
    cases hrun
    exact ⟨[], rfl, rfl, rfl⟩
  | cons m moves ih =>
    intro h h' s t hrun
    obtain ⟨h1, s1, hmove, hlines, hrest⟩ := HostProgram.run_cons_next hrun
    obtain ⟨turns, haccesses, hothers, hreplay⟩ := ih h1 h' s1 t hrest
    rw [hlines, List.map_append, ← haccesses]
    obtain ⟨rfl, hsilent, hnone⟩ | ⟨turn, hturn, haccess, hother⟩ := HostProgram.move_turn hmove
    · exact ⟨turns, by rw [hsilent]; rfl, by rw [List.filterMap_cons_none hnone, hothers], hreplay⟩
    · have hstep := step_withInbox s turn turns
      rw [hturn] at hstep
      refine ⟨[turn] ++ turns, ?_, ?_, (core_run_succ _ _ _ hstep).trans hreplay⟩
      · rw [List.filterMap_append, haccess]
      · rw [List.filterMap_append, hother, hothers, ← List.filterMap_append]
        rfl

/-- R64: a run that goes on from where its first part got to. -/
theorem HostProgram.run_append {h h' : HostProgram} {s t : State} {moves : List RunMove} (more : List RunMove)
    (hrun : (h.run s moves).outcome = .next (h', t)) :
    h.run s (moves ++ more) = ⟨(h.run s moves).lines ++ (h'.run t more).lines, (h'.run t more).outcome⟩ := by
  induction moves generalizing h s with
  | nil =>
    cases hrun
    rfl
  | cons m moves ih =>
    obtain ⟨h1, s1, hmove, hlines, hrest⟩ := HostProgram.run_cons_next hrun
    rw [List.cons_append, h.run_cons h1 s s1 m _ hmove, hlines, ih hrest, List.append_assoc]

/-- R42, R64: a run that stopped adds no lines. -/
theorem HostProgram.run_append_stopped {h : HostProgram} {s : State} {moves : List RunMove} (more : List RunMove)
    (hstop : ∀ place, (h.run s moves).outcome ≠ .next place) : (h.run s (moves ++ more)).lines = (h.run s moves).lines := by
  induction moves generalizing h s with
  | nil => exact absurd rfl (hstop (h, s))
  | cons m moves ih =>
    cases hmove : h.move s m with
    | next place =>
      rw [h.run_cons place.1 s place.2 m moves hmove] at hstop ⊢
      rw [List.cons_append, h.run_cons place.1 s place.2 m _ hmove, ih hstop]
    | fault r => simp [HostProgram.run, hmove]
    | refused r => simp [HostProgram.run, hmove]

/-- R62, R20: the mask 1 of a loop on STATUS selects BUSY. -/
theorem State.statusWord_and_one (s : State) : (s.statusWord &&& 0x1#64 != 0#64) = s.busy := by
  have hbit : s.statusWord.getLsbD 0 = s.busy := by
    rw [s.statusWord_getLsbD]
    simp
  rw [BitVec.and_one_eq_setWidth_ofBool_getLsbD, hbit]
  cases s.busy <;> rfl

/-- R61: a host variable has the value it was just set to. -/
theorem HostProgram.assign_value (h : HostProgram) (x : String) (v : Word) : (h.assign x v).value x = v := by
  simp [HostProgram.assign, HostProgram.value]

/-- R63: a program that stands at statement `k` of a WAIT loop and has not halted. -/
structure InWait (fresh : String) (k : Nat) (h : HostProgram) : Prop where
  stmts : h.stmts = (PseudoStmt.wait fresh).expand
  pc : h.pc = k
  running : h.halted = false

/-- R62: the loop's label is its first statement. -/
theorem HostProgram.goto_wait {h : HostProgram} {fresh : String} (hstmts : h.stmts = (PseudoStmt.wait fresh).expand) :
    h.goto fresh = { h with pc := 0 } := by
  have hfind : h.stmts.findIdx? (fun st => st == .label fresh) = some 0 := by
    rw [hstmts]
    simp [PseudoStmt.expand, List.findIdx?_cons]
  rw [HostProgram.goto, hfind]

/-- R62: the label of a WAIT loop does nothing. -/
theorem InWait.label {fresh : String} {h : HostProgram} {s : State} (hwait : InWait fresh 0 h) (hr : s.rst = false) :
    h.move s .statement = .next (h.advance, s) ∧ h.moveLines .statement = [] := by
  obtain ⟨stmts, pc, vars, halted, failed⟩ := h
  obtain ⟨rfl, rfl, rfl⟩ := hwait
  exact ⟨HostProgram.turn_live _ s rfl hr, rfl⟩

/-- R61, R63: the read of a WAIT loop sets `$s` to STATUS, and has the loop's one line. -/
theorem InWait.read {fresh : String} {h : HostProgram} {s : State} (hwait : InWait fresh 1 h) (hr : s.rst = false) :
    h.move s .statement = .next (h.assign "s" s.statusWord, s.afterRead 0x18 8) ∧ h.moveLines .statement = [.r8 0x18] := by
  obtain ⟨stmts, pc, vars, halted, failed⟩ := h
  obtain ⟨rfl, rfl, rfl⟩ := hwait
  have hstatus : (s.afterRead 0x18 8).busData = s.statusWord := congrArg BusReply.data (s.memRead_whole 0x18 rfl)
  rw [← hstatus]
  exact ⟨HostProgram.turn_live _ s rfl hr, rfl⟩

/-- R62, R63: the branch of a WAIT loop goes back to its start while the STATUS it tests has BUSY = 1, or else out of the loop. -/
theorem InWait.branch {fresh : String} {h : HostProgram} {s t : State} (hwait : InWait fresh 2 h) (hr : t.rst = false)
    (hvalue : h.value "s" = s.statusWord) :
    ∃ h', h.move t .statement = .next (h', t) ∧ h.moveLines .statement = [] ∧ h'.value "s" = s.statusWord ∧
      InWait fresh (if s.busy then 0 else 3) h' := by
  have hgoto : h.goto fresh = { h with pc := 0 } := HostProgram.goto_wait hwait.stmts
  obtain ⟨stmts, pc, vars, halted, failed⟩ := h
  obtain ⟨rfl, rfl, rfl⟩ := hwait
  refine ⟨⟨_, if s.busy then 0 else 3, vars, false, failed⟩, (HostProgram.turn_live _ t rfl hr).trans ?_, rfl, hvalue, rfl, rfl, rfl⟩
  change Host.Outcome.next (if HostProgram.value _ "s" &&& 0x1#64 != 0#64 then HostProgram.goto _ fresh else _, t) = _
  rw [hvalue, s.statusWord_and_one, hgoto]
  cases s.busy <;> rfl

/-- R63: one iteration of WAIT reads STATUS once and goes back to its start while BUSY = 1, or out of the loop. -/
theorem HostProgram.wait_iteration {fresh : String} {h : HostProgram} {s : State} (hwait : InWait fresh 0 h) (hr : s.rst = false) :
    ∃ h', h.run s (List.replicate 3 .statement) = ⟨[.r8 0x18], .next (h', s.afterRead 0x18 8)⟩ ∧ h'.value "s" = s.statusWord ∧
      InWait fresh (if s.busy then 0 else 3) h' := by
  obtain ⟨hlabel, hnoline⟩ := hwait.label hr
  have hwait1 : InWait fresh 1 h.advance := ⟨hwait.stmts, congrArg (· + 1) hwait.pc, hwait.running⟩
  obtain ⟨hread, hline⟩ := hwait1.read hr
  have hwait2 : InWait fresh 2 (h.advance.assign "s" s.statusWord) := ⟨hwait.stmts, congrArg (· + 1) hwait1.pc, hwait.running⟩
  obtain ⟨h', hbranch, hnoline', hvalue, hwait'⟩ :=
    hwait2.branch (t := s.afterRead 0x18 8) hr (h.advance.assign_value "s" s.statusWord)
  refine ⟨h', ?_, hvalue, hwait'⟩
  simp only [List.replicate, HostProgram.run_cons _ _ _ _ _ _ hlabel, HostProgram.run_cons _ _ _ _ _ _ hread,
    HostProgram.run_cons _ _ _ _ _ _ hbranch, hnoline, hline, hnoline', HostProgram.run_nil, List.nil_append, List.append_nil]

/-- R63: `k` iterations of WAIT while BUSY = 1. -/
theorem HostProgram.wait_iterations (k : Nat) {fresh : String} {h : HostProgram} {s : State} (hwait : InWait fresh 0 h)
    (hr : s.rst = false) (hbusy : s.busy = true) :
    ∃ h' t, h.run s (List.replicate (3 * k) .statement) = ⟨List.replicate k (.r8 0x18), .next (h', t)⟩ ∧ InWait fresh 0 h' ∧
      t.seq = s.seq ∧ t.rst = false := by
  induction k generalizing h s with
  | zero => exact ⟨h, s, rfl, hwait, rfl, hr⟩
  | succ k ih =>
    obtain ⟨h1, hfirst, -, hwait1⟩ := HostProgram.wait_iteration hwait hr
    rw [hbusy, if_pos rfl] at hwait1
    obtain ⟨h', t, hrest, hend⟩ := ih (s := s.afterRead 0x18 8) hwait1 hr hbusy
    refine ⟨h', t, ?_, hend⟩
    have hmoves : List.replicate (3 * (k + 1)) RunMove.statement = List.replicate 3 .statement ++ List.replicate (3 * k) .statement := by
      rw [← List.replicate_add, Nat.mul_succ, Nat.add_comm]
    rw [hmoves, HostProgram.run_append _ (congrArg HostRun.outcome hfirst), hfirst, hrest]
    rfl

/-- Settles O60: a run splits at any point, and a WAIT loop is its iterations, one run after the other. -/
theorem loopGivesLinesPerIteration : Obligations.LoopGivesLinesPerIteration := by
  refine ⟨fun h s moves more => ?_, fun k h s fresh hstmts hpc hrunning hr hbusy => ?_, fun h s fresh hstmts hpc hrunning hr hidle => ?_⟩
  · cases hrun : (h.run s moves).outcome with
    | next place => rw [HostProgram.run_append more hrun]
    | fault r => rw [HostProgram.run_append_stopped more (by simp [hrun]), List.append_nil]
    | refused r => rw [HostProgram.run_append_stopped more (by simp [hrun]), List.append_nil]
  · obtain ⟨h', t, hrun, hwait, hend⟩ := HostProgram.wait_iterations k ⟨hstmts, hpc, hrunning⟩ hr hbusy
    exact ⟨h', t, congrArg HostRun.outcome hrun, congrArg HostRun.lines hrun, hwait.stmts.trans hstmts.symm, hwait.pc, hwait.running, hend⟩
  · obtain ⟨h', hrun, hvalue, hwait⟩ := HostProgram.wait_iteration ⟨hstmts, hpc, hrunning⟩ hr
    rw [hidle, if_neg (by decide)] at hwait
    exact ⟨h', _, congrArg HostRun.outcome hrun, congrArg HostRun.lines hrun, hwait.pc, hwait.running, hvalue⟩

end Sys2Proof.Machine
end

section
/-! Termination under weak fairness: a command that draws nothing, and a command with a cap, end (70_reset_and_hazards.md rules R122, R125;
42_prime.md rules R86 to R89; log 20). -/

namespace Sys2Proof.Machine

open Sys2Proof

/-- R125: after `n` steps of the schedule the command `op` still runs, with `words` drawn, in a state of the invariant. -/
structure RunsAt (sched : Schedule) (s : State) (op : Snapshot) (n : Nat) (words : List Word32) (t : State) : Prop where
  run : sched.run s n = .next t
  seq : t.seq = .running (Run.after op words)
  inv : Inv t

/-- R67, R115: what a turn can leave of a running command: the command with its words, the command with a word more, or nothing. -/
theorem TurnEffect.words {s t : State} {turn : Turn} {op : Snapshot} {words : List Word32} (hs : s.seq = .running (Run.after op words))
    (h : TurnEffect s turn t) :
    t.seq = .running (Run.after op words) ∨ (∃ w, t.seq = .running (Run.after op (words ++ [w]))) ∨ t.busy = false := by
  cases h with
  | held | reset => exact .inr (.inr rfl)
  | released | stayed => exact .inl hs
  | host hr h =>
    cases h with
    | answered | ignored | operand | seeded | acknowledged | dropped | configured => exact .inl hs
    | issued hidle => exact absurd (s.busy_running _ hs) (by simp [hidle])
    | softReset | aborted => exact .inr (.inr rfl)
  | command hr hturn hs' h =>
    obtain rfl := Sequencer.running.inj (hs.symm.trans hs')
    cases h with
    | nop | failed | completed => exact .inr (.inr rfl)
    | drew w => exact .inr (.inl ⟨w, rfl⟩)

/-- R68: a step of a running command that has an effect draws a word or ends the command. -/
theorem CommandEffect.words {s t : State} {op : Snapshot} {words : List Word32} (h : CommandEffect s (Run.after op words) t) :
    (∃ w, t.seq = .running (Run.after op (words ++ [w]))) ∨ t.busy = false := by
  cases h with
  | nop | failed | completed => exact .inr rfl
  | drew w => exact .inl ⟨w, rfl⟩

/-- R125: a step of a scheduled run is the turn of the schedule. -/
theorem Schedule.turn_of_run {sched : Schedule} {s t t' : State} {n : Nat} (h : sched.run s n = .next t)
    (h' : sched.run s (n + 1) = .next t') : (t.withInbox []).turn (sched n) = .next t' := by
  rwa [sched.run_succ s t n h, ← t.turn_withInbox (sched n) []] at h'

/-- R125: no step of the run ends the command. -/
def NeverEnds (sched : Schedule) (s : State) (op : Snapshot) : Prop :=
  ∀ n words t t', RunsAt sched s op n words t → sched.run s (n + 1) = .next t' → t'.busy = true

/-- R88, R125: the next turn moves a command with these words: the sequencer's while no word is awaited, a delivery while one is. -/
def MovesOn (turn : Turn) (op : Snapshot) (words : List Word32) : Prop :=
  turn = .sequencer ∧ (Run.after op words).request = false ∨ ∃ w, turn = .entropy w ∧ (Run.after op words).request = true

section

variable {sched : Schedule} {s t : State} {op : Snapshot} {n : Nat} {words : List Word32}

/-- R125: a command that never ends runs on with its words, or with one more. -/
theorem RunsAt.next (goes : sched.GoesOn s) (never : NeverEnds sched s op) (h : RunsAt sched s op n words t) :
    ∃ t', RunsAt sched s op (n + 1) words t' ∨ ∃ w, RunsAt sched s op (n + 1) (words ++ [w]) t' := by
  obtain ⟨t', hrun⟩ := goes (n + 1)
  have heffect := State.turn_effect (Schedule.turn_of_run h.run hrun)
  have hinv := heffect.inv (h.inv.withInbox [])
  refine ⟨t', ?_⟩
  obtain hsame | ⟨w, hgrown⟩ | hends := TurnEffect.words (s := t.withInbox []) h.seq heffect
  · exact .inl ⟨hrun, hsame, hinv⟩
  · exact .inr ⟨w, hrun, hgrown, hinv⟩
  · exact absurd (never n words t t' h hrun) (by simp [hends])

/-- R88, R125: a turn that moves a command that never ends draws a word. -/
theorem RunsAt.draws (goes : sched.GoesOn s) (never : NeverEnds sched s op) (h : RunsAt sched s op n words t)
    (hmoves : MovesOn (sched n) op words) : ∃ w t', RunsAt sched s op (n + 1) (words ++ [w]) t' := by
  obtain ⟨t', hrun⟩ := goes (n + 1)
  have hturn := Schedule.turn_of_run h.run hrun
  have hinv := (State.turn_effect hturn).inv (h.inv.withInbox [])
  have hr : (t.withInbox []).rst = false := h.inv.rst_released h.seq
  have heffect : CommandEffect (t.withInbox []) (Run.after op words) t' := by
    obtain ⟨hseq, hrequest⟩ | ⟨w, hentropy, hrequest⟩ := hmoves
    · obtain heffect | ⟨-, -, hawaits⟩ := State.turn_sequencer_effect hr h.seq (hseq ▸ hturn)
      · exact heffect
      · exact absurd hawaits (by simp [hrequest])
    · exact State.turn_entropy_effect hr h.seq hrequest (hentropy ▸ hturn)
  obtain ⟨w, hgrown⟩ | hends := heffect.words
  · exact ⟨w, t', hrun, hgrown, hinv⟩
  · exact absurd (never n words t t' h hrun) (by simp [hends])

/-- R125: a command that never ends and never draws beyond `words` keeps just these. -/
theorem RunsAt.stays (goes : sched.GoesOn s) (never : NeverEnds sched s op) (h : RunsAt sched s op n words t)
    (hmost : ∀ m words' t', RunsAt sched s op m words' t' → words'.length ≤ words.length) {m : Nat} (hm : n ≤ m) :
    ∃ t', RunsAt sched s op m words t' := by
  induction m, hm using Nat.le_induction with
  | base => exact ⟨t, h⟩
  | succ m _ ih =>
    obtain ⟨u, hu⟩ := ih
    obtain ⟨t', hsame | ⟨w, hgrown⟩⟩ := hu.next goes never
    · exact ⟨t', hsame⟩
    · exact absurd (hmost _ _ _ hgrown) (by simp)

/-- R34, R86: whether a word is awaited, from the words drawn. -/
theorem RunsAt.awaitsWord (h : RunsAt sched s op n words t) : t.awaitsWord = (Run.after op words).request := by
  simp [State.awaitsWord, h.seq]

/-- R125: the sequencer's step is enabled while no word is awaited. -/
theorem RunsAt.sequencerEnabled (h : RunsAt sched s op n words t) : t.sequencerEnabled = !(Run.after op words).request := by
  rw [State.sequencerEnabled, t.busy_running _ h.seq, h.awaitsWord, Bool.true_and]

/-- R8, R125: fairness gives a turn that moves the command, if it keeps its words for ever: the sequencer's where no word is awaited, and a
delivery where one is. -/
theorem exists_movesOn (fair : sched.WeaklyFair s) (entropy : (Run.after op words).request = true → sched.EntropyFair s)
    (hstays : ∀ m, n ≤ m → ∃ t', RunsAt sched s op m words t') : ∃ k, n ≤ k ∧ MovesOn (sched k) op words := by
  cases hrequest : (Run.after op words).request with
  | false =>
    obtain ⟨k, hk, hturn | ⟨u, hu, hdisabled⟩⟩ := fair n
    · exact ⟨k, hk, .inl ⟨hturn, hrequest⟩⟩
    · obtain ⟨t', ht'⟩ := hstays k hk
      obtain rfl := Host.Outcome.next.inj (ht'.run.symm.trans hu)
      rw [ht'.sequencerEnabled, hrequest] at hdisabled
      cases hdisabled
  | true =>
    obtain ⟨k, hk, ⟨w, hturn⟩ | ⟨u, hu, hnone⟩⟩ := entropy hrequest n
    · exact ⟨k, hk, .inr ⟨w, hturn, hrequest⟩⟩
    · obtain ⟨t', ht'⟩ := hstays k hk
      obtain rfl := Host.Outcome.next.inj (ht'.run.symm.trans hu)
      rw [ht'.awaitsWord, hrequest] at hnone
      cases hnone

/-- R125: under fairness a command that never ends draws without end. -/
theorem RunsAt.grows (goes : sched.GoesOn s) (never : NeverEnds sched s op) (fair : sched.WeaklyFair s)
    (entropy : ∀ words, (Run.after op words).request = true → sched.EntropyFair s) (h : RunsAt sched s op n words t) :
    ∃ m words' t', RunsAt sched s op m words' t' ∧ words.length < words'.length := by
  by_contra hnone
  push Not at hnone
  obtain ⟨k, hk, hmoves⟩ := exists_movesOn fair (entropy words) fun m hm => h.stays goes never hnone hm
  obtain ⟨u, hu⟩ := h.stays goes never hnone hk
  obtain ⟨w, t', hgrown⟩ := hu.draws goes never hmoves
  exact absurd (hnone _ _ _ hgrown) (by simp)

/-- R88, R89: the invariant bounds the words of a command that draws nothing, or has a cap, by its LIMIT. -/
theorem RunsAt.length_le (hbound : op.op ≠ .primegen ∧ op.op ≠ .keygen ∨ op.limit ≠ 0#64) (h : RunsAt sched s op n words t) :
    words.length ≤ op.limit.toNat := by
  have hrun := h.inv.running _ h.seq
  obtain hdrawless | hlimit := hbound
  · obtain rfl | ⟨ws, w, rfl⟩ := words.eq_nil_or_concat'
    · exact Nat.zero_le _
    · exact absurd (eq_of_wantsWord (hrun.needed 0 (by simp))) (not_or.2 hdrawless)
  · exact hrun.capped hlimit

/-- R125: so such a command ends. -/
theorem not_neverEnds (goes : sched.GoesOn s) (fair : sched.WeaklyFair s)
    (entropy : ∀ words, (Run.after op words).request = true → sched.EntropyFair s)
    (hbound : op.op ≠ .primegen ∧ op.op ≠ .keygen ∨ op.limit ≠ 0#64) (h : RunsAt sched s op n words t) : ¬ NeverEnds sched s op := by
  intro never
  have unbounded (L : Nat) : ∃ m words' t', RunsAt sched s op m words' t' ∧ L ≤ words'.length := by
    induction L with
    | zero => exact ⟨n, words, t, h, Nat.zero_le _⟩
    | succ L ih =>
      obtain ⟨m, words', t', h', hL⟩ := ih
      obtain ⟨m', words'', t'', h'', hlt⟩ := h'.grows goes never fair entropy
      exact ⟨m', words'', t'', h'', by omega⟩
  obtain ⟨m, words', t', h', hL⟩ := unbounded (op.limit.toNat + 1)
  have hle := h'.length_le hbound
  omega

end

/-- Settles O58: a command that never ended would draw without end, past the bound of its words; the step that ends it is a completion or a
reset. -/
theorem fairCommandEnds : Obligations.FairCommandEnds := by
  intro sched s run hinv hs goes fair halternatives
  have hstart : RunsAt sched s run.op 0 run.words s := ⟨rfl, (hinv.running run hs).level ▸ hs, hinv⟩
  have hbound : run.op.op ≠ .primegen ∧ run.op.op ≠ .keygen ∨ run.op.limit ≠ 0#64 := halternatives.imp_right And.left
  have entropy (words : List Word32) (hrequest : (Run.after run.op words).request = true) : sched.EntropyFair s := by
    obtain ⟨hsrc, -, hneeded⟩ := (Run.after_request_iff _ _).1 hrequest
    obtain hdrawless | ⟨-, hinternal | hfair⟩ := halternatives
    · exact absurd (eq_of_wantsWord hneeded) (not_or.2 hdrawless)
    · exact absurd hinternal (by simp [hsrc])
    · exact hfair
  have hends := not_neverEnds goes fair entropy hbound hstart
  unfold NeverEnds at hends
  push Not at hends
  obtain ⟨n, words, t, t', h, hrun, hidle⟩ := hends
  have hidle : t'.busy = false := by simpa using hidle
  refine ⟨n, t, _, t', h.run, h.seq, rfl, hrun, hidle, ?_⟩
  have hstep : step (t.withInbox [sched n]) = .next t' := by
    rw [step_withInbox, ← t.turn_withInbox]
    exact Schedule.turn_of_run h.run hrun
  exact (commandEndsByCompletionOrReset _ _ hstep (t.busy_running _ h.seq) hidle).imp_right And.left

end Sys2Proof.Machine
end
